-- ==== Sys2Proof/Word.lean ====
section
/-! DEFINITION. The machine's data words: the 64-bit limb and port word, the byte lane, and the
element of six limbs (spec 00_scope.md R7, R8; 10_state.md R21). -/

namespace Sys2Proof

/-- One limb, one condition register, one host data word: 64 bits (R7, R8). -/
abbrev Word := BitVec 64

/-- One byte lane of a 64-bit port word (R54). -/
abbrev Byte := BitVec 8

/-- The content of one element register: six 64-bit limbs, limb 0 least significant (R21). -/
abbrev Elem := Vector Word 6

end Sys2Proof
end

