-- ==== Sys2Proof/Config.lean ====
section
/-! DEFINITION. What an instance of the block fixes, and the values the spec leaves free
(spec 00_scope.md R7 to R9, 13; 93_implementation_defined.md U1, U2, U9). The digits of the modulus
table stand in Sys2Proof/Machine/ModulusTable.lean. -/

namespace Sys2Proof.Config

/-- `WORD_BITS`: bits in a limb and in a host data word (R8). -/
def wordBits : Nat := 64

/-- `LIMBS`: limbs in an element (R8). -/
def limbs : Nat := 6

/-- `NREG`: element registers (R8). -/
def nreg : Nat := 8

/-- `NCOND`: condition registers (R8). -/
def ncond : Nat := 8

/-- `CMD_BITS`: bits in a command word (R8, R80). -/
def cmdBits : Nat := 16

/-- `WIN_BYTES`: bytes in the host register window (R8, R50). -/
def winBytes : Nat := 0x300

/-- The build-time check of R9: a build for which it fails is not an instance of this hardware,
so a model carries it as a fact of its configuration and not as a run-time test. -/
theorem widths_agree : wordBits = 64 ∧ limbs = 6 ∧ limbs * wordBits = 384 := by decide

/-- The free value the spec writes `any` (R13): the `n`-th limb ever drawn. It has no body, so a
statement that mentions it holds for every value it could have. The step supplies `n` from the
counter `State.draws` (U1, U2; log entry 1). -/
opaque freeLimb : Nat → BitVec 64

/-- One less than the latency of the command with opcode `op`, in cycles: an open parameter that
depends on the opcode alone (R8, R170, R171, U9). No rule about values reads it and the model has no
time (log entry 8). -/
opaque latencyLessOne : Nat → Nat

/-- `LAT_op`, a positive number of cycles that is a function of the opcode alone (R8). -/
def latency (op : Nat) : Nat := latencyLessOne op + 1

end Sys2Proof.Config
end

