-- ==== Sys2Proof/Syntax.lean ====
section
/-! DEFINITION. The commands of the block, one constructor per row of spec/opcode_table.json
(30_encoding.md R83), and the steps the host can ask of the port (20_memory.md R57 to R59,
70_reset_and_hazards.md R160). -/

namespace Sys2Proof

/-- The number of an element register `E0` to `E7` (R21, R82). -/
abbrev EReg := Fin 8

/-- The number of a condition register `K0` to `K7` (R25, R82). -/
abbrev KReg := Fin 8

/-- A command of the block, operands in the order of the command word: destination first (R81, R82). -/
inductive Instr where
  /-- `CCOPY Ed, Ea, Kc`: conditional copy (R100). -/
  | ccopy (rd ra : EReg) (kc : KReg)
  /-- `FADD Ed, Ea, Eb`: addition in the field of `Q` (R110). -/
  | fadd (rd ra rb : EReg)
  /-- `FMUL Ed, Ea, Eb`: Montgomery multiplication modulo `Q` (R122). -/
  | fmul (rd ra rb : EReg)
  /-- `SMUL Ed, Ea, Eb`: Montgomery multiplication modulo `N` (R123). -/
  | smul (rd ra rb : EReg)
  deriving DecidableEq, Repr

/-- What stands at the head of the port's order of accesses (R10, R60). `width` is in bits and `off`
in bytes from the window's base (R51). -/
inductive HostStep where
  /-- `HostRead(off)` of `width` bits (R57). -/
  | read (width off : Nat)
  /-- `HostWrite(off, v)` of `width` bits (R59). The datum of an access of a width other than 64 is
  never looked at: such an access is refused (R53). -/
  | write (width off : Nat) (v : Word)
  /-- The `Reset` step (R160). -/
  | reset
  /-- No host step is taken up at this point of the order, so the turn is the core's (R10, R60, U11;
  log entry 3). -/
  | wait
  deriving DecidableEq, Repr

end Sys2Proof
end

