-- ==== Sys2Proof/WellFormed.lean ====
section
/-! DEFINITION. Well-formedness, said as the spec's tables say it and apart from the decoder and the
port, so that agreement with them is something to prove: legal command data by mask and match (30_encoding.md R83,
R85), legal port accesses (20_memory.md R52, R53), and register numbers in range (R82). -/

namespace Sys2Proof

/-- One row of the opcode map as a 64-bit `CMD` write datum is compared with it (R83): the datum is
the row's command exactly when `v &&& mask = match`. -/
def cmdMask : Word := 0xFFFFFFFFFFFFF007

/-- The match words of `CCOPY`, `FADD`, `FMUL`, `SMUL`, in the order of the opcode map (R83). -/
def cmdMatches : List Word := [0x1000, 0x2000, 0x3000, 0x4000]

/-- The datum is one of the legal command words zero-extended (R83, R142). -/
def legalDatum (v : Word) : Bool := cmdMatches.contains (v &&& cmdMask)

/-- Every operand field names an existing register (R82). The operand types already hold this; it is
written out so that a wider type could not pass in silence. -/
def Instr.wellFormed : Instr → Bool
  | .ccopy rd ra kc => rd.val < Config.nreg && ra.val < Config.nreg && kc.val < Config.ncond
  | .fadd rd ra rb => rd.val < Config.nreg && ra.val < Config.nreg && rb.val < Config.nreg
  | .fmul rd ra rb => rd.val < Config.nreg && ra.val < Config.nreg && rb.val < Config.nreg
  | .smul rd ra rb => rd.val < Config.nreg && ra.val < Config.nreg && rb.val < Config.nreg

/-- An access of 64 bits at a multiple of 8 inside the window (R52, R53). -/
def legalAccess (width off : Nat) : Bool :=
  width == Config.wordBits && off % 8 == 0 && off < Config.winBytes

/-- The port takes the step up (R52, R53); a reset is enabled in every state (R160). -/
def HostStep.wellFormed : HostStep → Bool
  | .read width off => legalAccess width off
  | .write width off _ => legalAccess width off
  | .reset => true
  | .wait => true

end Sys2Proof
end

