-- ==== Sys2Proof/Decode.lean ====
section
/-! DEFINITION. The decoder of a 64-bit `CMD` write datum, total and rejecting by name
(30_encoding.md R80 to R86), and after it the encoder. -/

namespace Sys2Proof

/-- Which condition of R85 made the datum illegal. The machine records none of it (R85, R141). -/
inductive IllegalCommand where
  /-- `v[63:16] != 0` (R85, condition 1). -/
  | highBits
  /-- `v[15:12]` is not an assigned opcode (R85, condition 2). -/
  | opcode
  /-- `v[2:0] != 0` (R85, condition 3). -/
  | zField
  deriving DecidableEq, Repr

/-- Bits 63:16, which must be zero (R80). -/
def fieldHigh (v : Word) : BitVec 48 := v.extractLsb' 16 48

/-- Bits 15:12, the opcode (R81). -/
def fieldOp (v : Word) : BitVec 4 := v.extractLsb' 12 4

/-- Bits 11:9, the destination element register (R81). -/
def fieldRd (v : Word) : EReg := (v.extractLsb' 9 3).toFin

/-- Bits 8:6, the first source element register (R81). -/
def fieldRa (v : Word) : EReg := (v.extractLsb' 6 3).toFin

/-- Bits 5:3, the second source element register, or `CCOPY`'s condition register (R81). -/
def fieldRb (v : Word) : Fin 8 := (v.extractLsb' 3 3).toFin

/-- Bits 2:0, which must be zero (R81). -/
def fieldZ (v : Word) : BitVec 3 := v.extractLsb' 0 3

/-- `Decode(v)` of R86. -/
def decode (v : Word) : Except IllegalCommand Instr :=
  if fieldHigh v ≠ 0 then .error .highBits
  else if fieldZ v ≠ 0 then .error .zField
  else if fieldOp v = 0x1 then .ok (.ccopy (fieldRd v) (fieldRa v) (fieldRb v))
  else if fieldOp v = 0x2 then .ok (.fadd (fieldRd v) (fieldRa v) (fieldRb v))
  else if fieldOp v = 0x3 then .ok (.fmul (fieldRd v) (fieldRa v) (fieldRb v))
  else if fieldOp v = 0x4 then .ok (.smul (fieldRd v) (fieldRa v) (fieldRb v))
  else .error .opcode

/-- The command latched in `CMDR`, read as `Complete` reads it: `Decode(zext_64(CMDR))` (R89). -/
def decodeLatched (c : BitVec 16) : Except IllegalCommand Instr := decode (c.setWidth 64)

/-- `Encode(op, rd, ra, rb)` of R86: the fields of format `R3` laid side by side (R81). -/
def encodeFields (op : BitVec 4) (rd ra rb : Fin 8) : Word :=
  (op.setWidth 64 <<< 12) ||| (BitVec.ofNat 64 rd.val <<< 9)
    ||| (BitVec.ofNat 64 ra.val <<< 6) ||| (BitVec.ofNat 64 rb.val <<< 3)

/-- The `CMD` write datum of a command (R83, R86, R90). -/
def encode : Instr → Word
  | .ccopy rd ra kc => encodeFields 0x1 rd ra kc
  | .fadd rd ra rb => encodeFields 0x2 rd ra rb
  | .fmul rd ra rb => encodeFields 0x3 rd ra rb
  | .smul rd ra rb => encodeFields 0x4 rd ra rb

/-- The opcode a command carries in bits 15:12 (R83); its latency is `Config.latency` of it (R8). -/
def opcodeOf : Instr → Nat
  | .ccopy _ _ _ => 1
  | .fadd _ _ _ => 2
  | .fmul _ _ _ => 3
  | .smul _ _ _ => 4

/-- What the decoder reads from a command whose bits, numbered as the opcode table numbers them, are
`w` (one 16-bit word, R80; the bits at `nbits` and above are zero). A number that does not fit the
64-bit datum is no command. -/
def decodeTableWord (nbits w : Nat) : Option Instr :=
  if w % 2 ^ nbits < 2 ^ 64 then
    match decode (BitVec.ofNat 64 (w % 2 ^ nbits)) with
    | .ok i => some i
    | .error _ => none
  else none

end Sys2Proof
end

