-- ==== Sys2Proof/Machine/State.lean ====
section
/-! DEFINITION. `Block`, the state of one instance of the block: exactly the five components of
10_state.md R20. `State`, the machine the host's interface runs: a block and, beside it, three fields of
the model's own (the host's pending steps, the data the port has answered, the count of free values
drawn). Fault and refusal reasons. The state after reset (R42, R160). -/

namespace Sys2Proof.Machine

/-- Why a step stops with a fault. -/
inductive Fault where
  /-- Raised by `Complete` when `BUSY = 1` and `CMDR` does not decode. R89 says `CMDR` always decodes
  there, and every step keeps it so; only states no run reaches stop here. Safe. -/
  | illegalLatch
  deriving DecidableEq, Repr

/-- Why a step is refused. -/
inductive Refusal where
  /-- Raised by an arm of `exec` that has no meaning yet; no arm raises it. Safe. -/
  | notModelled (mnemonic : String)
  /-- Raised by the port for an access of a width other than 64 bits (R53). Safe: the spec gives it no step. -/
  | accessWidth (width : Nat)
  /-- Raised by the port for an access whose offset is not a multiple of 8 (R53). Safe: no step. -/
  | accessMisaligned (off : Nat)
  /-- Raised by the port for an access at an offset of `0x300` or more (R53). Safe: no step. -/
  | accessOutside (off : Nat)
  deriving DecidableEq, Repr

/-- The state of one instance of the block, and nothing else: exactly the five components of R20. The
constants and `CFG` are configuration (R20, R31). -/
structure Block where
  /-- `E[0..7]`, the element registers (R21). -/
  e : Vector Elem 8
  /-- `K[0..7]`, the condition registers (R25). -/
  k : Vector Word 8
  /-- `BUSY`: a command is in flight (R32). -/
  busy : Bool
  /-- `CMDR`: the latched command (R33). -/
  cmdr : BitVec 16
  /-- `ILL`: the sticky illegal-command bit (R34). -/
  ill : Bool
  deriving DecidableEq, Repr

/-- A block with what stands outside it: the host's side of the port and the source of free values. Its
three fields are the model's own and no state of the block (log entry 11). -/
structure State extends Block where
  /-- Model's own: the steps the host asks for, in the order in which the port takes them up (R60; log entry 3). -/
  port : List HostStep
  /-- Model's own: the data of the reads the port has answered, latest first (R57; log entry 4). -/
  answers : List Word
  /-- Model's own: how many free limbs have been drawn (R13 `any`; log entry 1). -/
  draws : Nat
  deriving DecidableEq, Repr

/-- The block right after reset: every component zero (R42, R160). -/
def blockReset : Block :=
  { e := Vector.replicate 8 (Vector.replicate 6 0)
    k := Vector.replicate 8 0
    busy := false
    cmdr := 0
    ill := false }

/-- The state right after reset, and the first state of every execution (R42, R160). The host has asked
for nothing and the port has answered nothing; the draw counter starts at zero (log entries 1, 3, 4). -/
def State.reset : State :=
  { toBlock := blockReset
    port := []
    answers := []
    draws := 0 }

end Sys2Proof.Machine
end

