-- ==== Sys2Proof/Machine/ModulusTable.lean ====
section
/-! DEFINITION. The modulus table and the other wired constants (10_state.md R26 to R31, R36;
42_mont_mul.md R120, R127). They are not state: no step changes them. -/

namespace Sys2Proof.Machine

/-- `2^384`, the Montgomery radix `R` and one more than the largest element pattern (R8). -/
def radix : Nat := 2 ^ 384

/-- `Q`, the P-384 field prime (R27). -/
def primeQ : Nat :=
  0xffffffffffffffffffffffffffffffffffffffffffffffff_fffffffffffffffeffffffff0000000000000000ffffffff

/-- `N`, the P-384 group order (R28). -/
def orderN : Nat :=
  0xffffffffffffffffffffffffffffffffffffffffffffffff_c7634d81f4372ddf581a0db248b0a77aecec196accc52973

/-- `Q_N0`, the reduction constant of `Q`: `-Q^-1 mod 2^64` (R29). -/
def qN0 : Word := 0x0000000100000001

/-- `N_N0`, the reduction constant of `N`: `-N^-1 mod 2^64` (R30). -/
def nN0 : Word := 0x6ed46089e88fdc45

/-- `Rinv_Q`, the inverse of `2^384` modulo `Q` (R120). -/
def rinvQ : Nat :=
  0x00000014000000140000000c00000002fffffffcfffffffa_fffffffbfffffffdffffffebffffffd8ffffffe100000006

/-- `Rinv_N`, the inverse of `2^384` modulo `N` (R120). -/
def rinvN : Nat :=
  0x355ca87de39dbb1fa150206ce4f194ac78d4ba5866d61787_e29f9fb70a9da219d26d4aeba664edb0610ae855f2c0d911

/-- `ONE_Q`, Montgomery-one of the field (R127). The block does not hold it; the host writes it. -/
def oneQ : Nat := 2 ^ 128 + 2 ^ 96 - 2 ^ 32 + 1

/-- `RR_Q = 2^768 mod Q` (R127). The block does not hold it. -/
def rrQ : Nat :=
  0x000000000000000000000000000000010000000200000000_fffffffe000000000000000200000000fffffffe00000001

/-- `ONE_N`, Montgomery-one of the scalars (R127). The block does not hold it. -/
def oneN : Nat := 0x389cb27e0bc8d220a7e5f24db74f58851313e695333ad68d

/-- `RR_N = 2^768 mod N` (R127). The block does not hold it. -/
def rrN : Nat :=
  0x0c84ee012b39bf213fb05b7a28266895d40d49174aab1cc5_bc3e483afcb82947ff3d81e5df1aa4192d319b2419b409a9

/-- `True64`, the one true-equivalent condition word (R14, R101). -/
def true64 : Word := 0xFFFFFFFFFFFFFFFF

/-- `False64`, the one false-equivalent condition word (R14, R101). -/
def false64 : Word := 0

/-- The word a read of `CFG` returns (R36). -/
def cfgWord : Word := 0x0000000008080640

/-- `InQ(v)`: a field element (R14). -/
abbrev InQ (v : Nat) : Prop := v < primeQ

/-- `InN(v)`: a scalar (R14). -/
abbrev InN (v : Nat) : Prop := v < orderN

/-- `MontQ(x)`, the Montgomery form of `x` modulo `Q` (R14). -/
def montQ (x : Nat) : Nat := x * 2 ^ 384 % primeQ

/-- `MontN(x)`, the Montgomery form of `x` modulo `N` (R14). -/
def montN (x : Nat) : Nat := x * 2 ^ 384 % orderN

end Sys2Proof.Machine
end

