-- ==== Sys2Proof/Machine/Ops.lean ====
section
/-! DEFINITION. The named operations over the registers: the element value and its limbs
(00_scope.md R13), reads and writes of `E` and `K`, the draw of free limbs, the illegal-command event
and the reset that alone undoes it (60_exceptions.md R141, R144; 70_reset_and_hazards.md R160), and
issue (30_encoding.md R88). -/

namespace Sys2Proof.Machine

/-- `val(x)`: the number whose base-`2^64` digits are the six limbs, limb 0 least significant (R13, R21). -/
def elemVal (x : Elem) : Nat :=
  x[0].toNat + x[1].toNat * 2 ^ 64 + x[2].toNat * 2 ^ 128 + x[3].toNat * 2 ^ 192
    + x[4].toNat * 2 ^ 256 + x[5].toNat * 2 ^ 320

/-- `limbs(v)`: limb `i` is `v[64*i+63 : 64*i]` (R13). -/
def elemLimbs (v : Nat) : Elem :=
  #v[BitVec.ofNat 64 v, BitVec.ofNat 64 (v / 2 ^ 64), BitVec.ofNat 64 (v / 2 ^ 128),
    BitVec.ofNat 64 (v / 2 ^ 192), BitVec.ofNat 64 (v / 2 ^ 256), BitVec.ofNat 64 (v / 2 ^ 320)]

/-- Byte lane `j` of a port word: bits `8*j+7 : 8*j` (R54). -/
def byteLane (v : Word) (j : Nat) : Byte := v.extractLsb' (8 * j) 8

/-- `E[r]`, all six limbs (R21). -/
def readElem (s : State) (r : EReg) : Elem := s.e[r]

/-- `E[r] <- x`, all six limbs at once (R13). -/
def writeElem (s : State) (r : EReg) (x : Elem) : State := { s with e := s.e.set r.val x r.isLt }

/-- `E[r][i]` (R13). -/
def readLimb (s : State) (r : EReg) (i : Fin 6) : Word := (readElem s r)[i]

/-- `E[r][i] <- v`: the other five limbs keep their values (R59). -/
def writeLimb (s : State) (r : EReg) (i : Fin 6) (v : Word) : State :=
  writeElem s r ((readElem s r).set i.val v i.isLt)

/-- `K[c]` (R25). -/
def readCond (s : State) (c : KReg) : Word := s.k[c]

/-- `K[c] <- v`, a host write: no command writes `K` (R25, R59). -/
def writeCond (s : State) (c : KReg) (v : Word) : State := { s with k := s.k.set c.val v c.isLt }

/-- The six free limbs drawn when `n` have been drawn before (R13 `any`, R101, R125). -/
def freeElem (n : Nat) : Elem :=
  #v[Config.freeLimb n, Config.freeLimb (n + 1), Config.freeLimb (n + 2), Config.freeLimb (n + 3),
    Config.freeLimb (n + 4), Config.freeLimb (n + 5)]

/-- `for i in 0..5: E[r][i] <- any`: six fresh free limbs into `E[r]`, and nothing else but the draw
counter moves (R101, R125, U1, U2; log entry 1). -/
def drawElem (s : State) (r : EReg) : State :=
  { writeElem s r (freeElem s.draws) with draws := s.draws + 6 }

/-- `raise Illegal`: the block's one exception. Its whole effect is `ILL <- 1` (R141). -/
def raiseIllegal (s : State) : State := { s with ill := true }

/-- `Reset` (R160), which is also the only return from `Illegal` (R144): every register, `BUSY`, `ILL`
and `CMDR` zero. The host's pending steps and the answers already given are not the block's (R161). -/
def resetBlock (s : State) : State :=
  { s with toBlock := blockReset }

/-- `CMDR <- c; BUSY <- 1`: the latching of a legal command (R88). -/
def latchCommand (s : State) (c : BitVec 16) : State := { s with cmdr := c, busy := true }

/-- `Issue(v)`, the effect of a write of `v` to `CMD` (R88): discarded while `ILL = 1` (R143), else
`Illegal` raised for a word that is no command (R141), else the command latched. -/
def issue (s : State) (v : Word) : State :=
  if s.ill then s
  else
    match decode v with
    | .error _ => raiseIllegal s
    | .ok _ => latchCommand s (v.setWidth 16)

end Sys2Proof.Machine
end

