-- ==== Sys2Proof/Machine/Operands.lean ====
section
/-! DEFINITION. The operand forms: register direct is the only addressing mode (20_memory.md R65,
30_encoding.md R82). An element operand is read as a number or as six limbs, a condition operand as
one of three classes of word (40_conditional_copy.md R101). -/

namespace Sys2Proof.Machine

/-- An element source operand as a number, `val(E[r])` (R110, R122). -/
def sourceVal (s : State) (r : EReg) : Nat := elemVal (readElem s r)

/-- An element destination operand written with a number, `E[r] <- limbs(v)` (R13). -/
def writeVal (s : State) (r : EReg) (v : Nat) : State := writeElem s r (elemLimbs v)

/-- The three classes of condition word (R101). -/
inductive CondClass where
  /-- The word with all 64 bits set. -/
  | isTrue
  /-- The word 0. -/
  | isFalse
  /-- Any other word: not a condition. -/
  | neither
  deriving DecidableEq, Repr

/-- The class of a condition word (R101). -/
def condClass (c : Word) : CondClass :=
  if c = true64 then .isTrue else if c = false64 then .isFalse else .neither

/-- `CCOPY`'s condition operand (R100). -/
def sourceCond (s : State) (kc : KReg) : CondClass := condClass (readCond s kc)

end Sys2Proof.Machine
end

