-- ==== Sys2Proof/Machine/Flags.lean ====
section
/-! DEFINITION. The block keeps no flags (10_state.md R39). What stands here are the carry, the
comparison and the borrow that `FADD` forms inside its one step and does not keep
(41_field_add.md R110, R116, R117). -/

namespace Sys2Proof.Machine

/-- `carry = s[384]`, the carry-out bit of the 384-bit addition (R110). -/
def carryOut (a b : Nat) : Bool := (a + b) / 2 ^ 384 % 2 == 1

/-- `t = s[383:0]`, the raw 384-bit sum (R110). -/
def rawSum (a b : Nat) : Nat := (a + b) % 2 ^ 384

/-- `t < m`, the comparison (R110, R116). It is also the borrow-out of `t - m` (R114, R116). -/
def isBelow (t m : Nat) : Bool := t < m

/-- `(t - m) mod 2^384`, the fixed-width subtraction, borrow-out discarded (R110, R117). -/
def wrapSub (t m : Nat) : Nat := (t + 2 ^ 384 - m) % 2 ^ 384

end Sys2Proof.Machine
end

