-- ==== Sys2Proof/Machine/ConditionalCopy.lean ====
section
/-! DEFINITION. The unit `conditional_field_element_copy` and its command `CCOPY`
(40_conditional_copy.md R100 to R105). -/

namespace Sys2Proof.Machine

/-- `CCOPY Ed, Ea, Kc` (R100): a full overwrite under `True64`, nothing under `False64`, six free limbs
under any other word (R101; log entry 1). It cannot fail. -/
def execCcopy (rd ra : EReg) (kc : KReg) (s : State) : Host.Outcome State Fault Refusal :=
  match sourceCond s kc with
  | .isTrue => .next (writeElem s rd (readElem s ra))
  | .isFalse => .next s
  | .neither => .next (drawElem s rd)

/-- One limb of the mask form of the select, `(c & s) | (~c & d)` (R105): a realisation, not the
meaning. It agrees with R100 on the two condition words only. -/
def maskSelect (c s d : Word) : Word := (c &&& s) ||| (~~~c &&& d)

/-- The mask form over the six limbs (R105). -/
def maskSelectElem (c : Word) (s d : Elem) : Elem :=
  #v[maskSelect c s[0] d[0], maskSelect c s[1] d[1], maskSelect c s[2] d[2],
    maskSelect c s[3] d[3], maskSelect c s[4] d[4], maskSelect c s[5] d[5]]

end Sys2Proof.Machine
end

