-- ==== Sys2Proof/Machine/FieldAdd.lean ====
section
/-! DEFINITION. The adder unit `p384_field_adder` and its command `FADD` (41_field_add.md R110 to
R117), with the branch-free and the limb-serial form of the same function. -/

namespace Sys2Proof.Machine

/-- The sum of R110 for any two 384-bit patterns: the raw sum where there was no carry and it is below
`Q`, else `Q` subtracted once modulo `2^384`. -/
def fieldSum (a b : Nat) : Nat :=
  if carryOut a b = false ∧ isBelow (rawSum a b) primeQ = true then rawSum a b
  else wrapSub (rawSum a b) primeQ

/-- `FADD Ed, Ea, Eb` (R110). Sources at or above `Q` are not detected and give the value of the same
algorithm (R113). It cannot fail. -/
def execFadd (rd ra rb : EReg) (s : State) : Host.Outcome State Fault Refusal :=
  .next (writeVal s rd (fieldSum (sourceVal s ra) (sourceVal s rb)))

/-- The branch-free form of R114: `t` and `d = (t - Q) mod 2^384` are both formed, `bw` is the borrow-out
of that subtraction (1 exactly where the subtraction left no 385th bit), and `t` is selected by arithmetic
exactly when `carry = 0` and `bw = 1`. -/
def fieldSumSelect (a b : Nat) : Nat :=
  let carry := (a + b) / 2 ^ 384
  let t := (a + b) % 2 ^ 384
  let w := t + 2 ^ 384 - primeQ
  let d := w % 2 ^ 384
  let bw := 1 - w / 2 ^ 384
  let keep := (1 - carry) * bw
  keep * t + (1 - keep) * d

/-- The sum limb `(x + y + c) mod 2^64` of R116. -/
def sumLimb (x y : Word) (c : Nat) : Word := BitVec.ofNat 64 (x.toNat + y.toNat + c)

/-- The carry `(x + y + c) div 2^64` of R116. -/
def sumCarry (x y : Word) (c : Nat) : Nat := (x.toNat + y.toNat + c) / 2 ^ 64

/-- The difference limb `(x - y - b) mod 2^64` of R116. -/
def diffLimb (x y : Word) (b : Nat) : Word := BitVec.ofNat 64 (x.toNat + 2 ^ 64 - (y.toNat + b))

/-- The borrow of a limb: 1 exactly when `x < y + b` (R116). -/
def diffBorrow (x y : Word) (b : Nat) : Nat := if x.toNat < y.toNat + b then 1 else 0

/-- `AddC` of R116, limb by limb from `c_0 = 0`: the six sum limbs and the carry-out `c_6`. -/
def addLimbs (x y : Elem) : Elem × Nat :=
  let c1 := sumCarry x[0] y[0] 0
  let c2 := sumCarry x[1] y[1] c1
  let c3 := sumCarry x[2] y[2] c2
  let c4 := sumCarry x[3] y[3] c3
  let c5 := sumCarry x[4] y[4] c4
  (#v[sumLimb x[0] y[0] 0, sumLimb x[1] y[1] c1, sumLimb x[2] y[2] c2, sumLimb x[3] y[3] c3,
      sumLimb x[4] y[4] c4, sumLimb x[5] y[5] c5],
    sumCarry x[5] y[5] c5)

/-- `SubB` of R116, limb by limb from a borrow of 0: the six difference limbs and the borrow-out. -/
def subLimbs (x y : Elem) : Elem × Nat :=
  let b1 := diffBorrow x[0] y[0] 0
  let b2 := diffBorrow x[1] y[1] b1
  let b3 := diffBorrow x[2] y[2] b2
  let b4 := diffBorrow x[3] y[3] b3
  let b5 := diffBorrow x[4] y[4] b4
  (#v[diffLimb x[0] y[0] 0, diffLimb x[1] y[1] b1, diffLimb x[2] y[2] b2, diffLimb x[3] y[3] b3,
      diffLimb x[4] y[4] b4, diffLimb x[5] y[5] b5],
    diffBorrow x[5] y[5] b5)

/-- `Less` of R116, decided by the borrow-out of the limb-serial subtraction. -/
def lessLimbs (x y : Elem) : Bool := (subLimbs x y).2 == 1

/-- `FADD`'s function over limbs: `(t, carry) = AddC`, the test `Less(t, Q)`, `(r, _) = SubB(t, Q)` (R116). -/
def fieldSumLimbs (x y : Elem) : Elem :=
  let t := (addLimbs x y).1
  let q := elemLimbs primeQ
  if (addLimbs x y).2 = 0 ∧ lessLimbs t q = true then t else (subLimbs t q).1

end Sys2Proof.Machine
end

