-- ==== Sys2Proof/Machine/MontMul.lean ====
section
/-! DEFINITION. The units `p384_mont_multiplier` and `p384_scalar_mont_multiplier` and their commands
`FMUL` and `SMUL` (42_mont_mul.md R120 to R132), with the word-serial reference algorithm (R129). -/

namespace Sys2Proof.Machine

/-- `MontMul(a, b, m) = (a * b * Rinv_m) mod m` (R120): the whole meaning of the kernel. -/
def montMul (a b m rinv : Nat) : Nat := a * b * rinv % m

/-- The two multipliers' one algorithm (R122, R123): in-range sources give the Montgomery product; a
source at or above the modulus is not detected and leaves six free limbs (R125; log entry 1). -/
def montCommand (m rinv : Nat) (rd ra rb : EReg) (s : State) : State :=
  if sourceVal s ra < m ∧ sourceVal s rb < m then
    writeVal s rd (montMul (sourceVal s ra) (sourceVal s rb) m rinv)
  else drawElem s rd

/-- `FMUL Ed, Ea, Eb` (R122). It cannot fail. -/
def execFmul (rd ra rb : EReg) (s : State) : Host.Outcome State Fault Refusal :=
  .next (montCommand primeQ rinvQ rd ra rb s)

/-- `SMUL Ed, Ea, Eb` (R123). It cannot fail. -/
def execSmul (rd ra rb : EReg) (s : State) : Host.Outcome State Fault Refusal :=
  .next (montCommand orderN rinvN rd ra rb s)

/-- One turn of the loop of R129: add `a[i] * b`, then the multiple `u * m` that clears the low 64 bits,
then drop them. -/
def montRefTurn (ai : Word) (b m : Nat) (n0 : Word) (t : Nat) : Nat :=
  let t1 := t + ai.toNat * b
  let u := t1 % 2 ^ 64 * n0.toNat % 2 ^ 64
  (t1 + u * m) / 2 ^ 64

/-- `MontMulRef(a, b, M, n0)` of R129: a reference algorithm, not the meaning. Its behaviour on
out-of-range sources is not the hardware's (R125). -/
def montMulRef (a : Elem) (b m : Nat) (n0 : Word) : Nat :=
  let t := a.toList.foldl (fun t ai => montRefTurn ai b m n0 t) 0
  if m ≤ t then t - m else t

end Sys2Proof.Machine
end

