-- ==== Sys2Proof/Machine/Dispatch.lean ====
section
/-! DEFINITION. The one match from commands to meanings (30_encoding.md R89). -/

namespace Sys2Proof.Machine

/-- What `Complete` performs for a decoded command, before it clears `BUSY` (R89). -/
def exec (i : Instr) (s : State) : Host.Outcome State Fault Refusal :=
  match i with
  | .ccopy rd ra kc => Sys2Proof.Machine.execCcopy rd ra kc s
  | .fadd rd ra rb => Sys2Proof.Machine.execFadd rd ra rb s
  | .fmul rd ra rb => Sys2Proof.Machine.execFmul rd ra rb s
  | .smul rd ra rb => Sys2Proof.Machine.execSmul rd ra rb s

end Sys2Proof.Machine
end

