-- ==== Sys2Proof/Machine/Complete.lean ====
section
/-! DEFINITION. The core's one step, `Complete` (30_encoding.md R89), and the latching of a command
for it from outside. -/

namespace Sys2Proof.Machine

/-- `BUSY <- 0`, the end of every `Complete` (R89). -/
def clearBusy (s : State) : State := { s with busy := false }

/-- `Complete` around a command's own effect: the effect, then `BUSY <- 0` (R89). -/
def finish (o : Host.Outcome State Fault Refusal) : Host.Outcome State Fault Refusal :=
  match o with
  | .next t => .next (clearBusy t)
  | .fault f => .fault f
  | .refused r => .refused r

/-- `Complete` (R89). A latched word that is no command is met in no run (R89) and stops the machine. -/
def complete (s : State) : Host.Outcome State Fault Refusal :=
  match decodeLatched s.cmdr with
  | .ok i => finish (exec i s)
  | .error _ => .fault .illegalLatch

/-- The core's turn: `Complete` is enabled exactly when `BUSY = 1` (R10, R89); with `BUSY = 0` the block
waits and keeps its state (R153; log entry 5). -/
def coreTurn (s : State) : Host.Outcome State Fault Refusal :=
  if s.busy then complete s else .next s

/-- `s` with the command word `w % 2^nbits` latched as the issue of it latches it (R88), and the next
turn given to the core (log entry 6). -/
def latchForFetch (s : State) (nbits w : Nat) : State :=
  { latchCommand s (BitVec.ofNat 16 (w % 2 ^ nbits)) with port := .wait :: s.port }

end Sys2Proof.Machine
end

