-- ==== Sys2Proof/Machine/Window.lean ====
section
/-! DEFINITION. The host register window: what each offset names (20_memory.md R51), its reads and
writes (R55, R57, R59) and its bytes (R54). -/

namespace Sys2Proof.Machine

/-- What a word of the window is (R51). -/
inductive WindowWord where
  /-- `E[r][i]`: read, write. -/
  | limb (r : EReg) (i : Fin 6)
  /-- `K[k]`: read, write. -/
  | cond (k : KReg)
  /-- `CMD`: write only. -/
  | cmd
  /-- `STATUS`: read only. -/
  | status
  /-- `CFG`: read only. -/
  | cfg
  /-- `Q[i]`: read only. -/
  | q (i : Fin 6)
  /-- `Q_N0`: read only. -/
  | qn0
  /-- `N[i]`: read only. -/
  | n (i : Fin 6)
  /-- `N_N0`: read only. -/
  | nn0
  /-- A pad or a reserved word: reads 0, write ignored. -/
  | reserved
  deriving DecidableEq, Repr

/-- The word at a legal offset (R51). Offsets that are not multiples of 8 or lie at `0x300` and above
never come here from the port (R53); they name the word that holds them and `reserved`. -/
def windowWord (off : Nat) : WindowWord :=
  if h : off < 0x200 then
    if hi : off % 0x40 / 8 < 6 then .limb ⟨off / 0x40, by omega⟩ ⟨off % 0x40 / 8, hi⟩ else .reserved
  else if h : off < 0x240 then .cond ⟨(off - 0x200) / 8, by omega⟩
  else if off / 8 * 8 = 0x240 then .cmd
  else if off / 8 * 8 = 0x248 then .status
  else if off / 8 * 8 = 0x250 then .cfg
  else if off < 0x280 then .reserved
  else if h : off < 0x2B0 then .q ⟨(off - 0x280) / 8, by omega⟩
  else if off / 8 * 8 = 0x2B0 then .qn0
  else if off < 0x2C0 then .reserved
  else if h : off < 0x2F0 then .n ⟨(off - 0x2C0) / 8, by omega⟩
  else if off / 8 * 8 = 0x2F0 then .nn0
  else .reserved

/-- `STATUS`: bit 1 is `ILL`, bit 0 is `BUSY`, the rest zero (R35). -/
def statusWord (s : State) : Word := (BitVec.ofBool s.ill ++ BitVec.ofBool s.busy).setWidth 64

/-- `WinRead(off)` (R57): write-only and reserved words read 0 (R55). -/
def winRead (s : State) (off : Nat) : Word :=
  match windowWord off with
  | .limb r i => readLimb s r i
  | .cond c => readCond s c
  | .cmd => 0
  | .status => statusWord s
  | .cfg => cfgWord
  | .q i => (elemLimbs primeQ)[i]
  | .qn0 => qN0
  | .n i => (elemLimbs orderN)[i]
  | .nn0 => nN0
  | .reserved => 0

/-- `WinWrite(off, v)` (R59): a write to a read-only or reserved word is accepted and ignored (R55). -/
def winWrite (s : State) (off : Nat) (v : Word) : State :=
  match windowWord off with
  | .limb r i => writeLimb s r i v
  | .cond c => writeCond s c v
  | .cmd => issue s v
  | .status => s
  | .cfg => s
  | .q _ => s
  | .qn0 => s
  | .n _ => s
  | .nn0 => s
  | .reserved => s

/-- The byte of the window at offset `a`: byte lane `a mod 8` of the word that holds it (R54). -/
def windowByte (s : State) (a : Nat) : Byte := byteLane (winRead s (a / 8 * 8)) (a % 8)

end Sys2Proof.Machine
end

