-- ==== Sys2Proof/Machine/Port.lean ====
section
/-! DEFINITION. The port: refused accesses (20_memory.md R53), the interlock (R58), the host's steps
(R57, R59; 70_reset_and_hazards.md R160), and whose turn it is in the one total order (R60). -/

namespace Sys2Proof.Machine

/-- The name under which the port refuses an access, or none for a legal one (R52, R53; log entry 2). -/
def accessRefusal (width off : Nat) : Option Refusal :=
  if width ≠ 64 then some (.accessWidth width)
  else if off % 8 ≠ 0 then some (.accessMisaligned off)
  else if 0x300 ≤ off then some (.accessOutside off)
  else none

/-- The interlock: while `BUSY = 1` an access in `0x000` to `0x247` is held (R58). -/
def held (s : State) (off : Nat) : Bool := s.busy && decide (off < 0x248)

/-- `HostRead(off)` answered: the datum goes to the host and no state of the block changes (R57). -/
def hostRead (s : State) (off : Nat) : State := { s with answers := winRead s off :: s.answers }

/-- `HostWrite(off, v)` performed (R59). -/
def hostWrite (s : State) (off : Nat) (v : Word) : State := winWrite s off v

/-- `s` with `rest` as the steps still pending. -/
def withPort (s : State) (rest : List HostStep) : State := { s with port := rest }

/-- One step of the whole: the host step at the head of the port's order, or the core's turn where there
is none, where the order says so, or where the interlock holds the access at the head (R10, R58, R60).
A held access stays at the head. -/
def turn (s : State) : Host.Outcome State Fault Refusal :=
  match s.port with
  | [] => coreTurn s
  | .wait :: rest => coreTurn (withPort s rest)
  | .reset :: rest => .next (resetBlock (withPort s rest))
  | .read width off :: rest =>
    match accessRefusal width off with
    | some r => .refused r
    | none => if held s off then coreTurn s else .next (hostRead (withPort s rest) off)
  | .write width off v :: rest =>
    match accessRefusal width off with
    | some r => .refused r
    | none => if held s off then coreTurn s else .next (hostWrite (withPort s rest) off v)

end Sys2Proof.Machine
end

