-- ==== Sys2Proof/Machine/Script.lean ====
section
/-! DEFINITION. The lines of the host script notation as the host steps they stand for
(30_encoding.md R91). -/

namespace Sys2Proof.Machine

/-- `WRE Er, v`: six writes, limb 0 first. -/
def scriptWre (r : EReg) (v : Nat) : List HostStep :=
  (List.finRange 6).map fun i => .write 64 (0x40 * r.val + 8 * i.val) ((elemLimbs v)[i])

/-- `WRK Kk, w`. -/
def scriptWrk (k : KReg) (w : Word) : List HostStep := [.write 64 (0x200 + 8 * k.val) w]

/-- `RDE Er`: six reads, limb 0 first. -/
def scriptRde (r : EReg) : List HostStep :=
  (List.finRange 6).map fun i => .read 64 (0x40 * r.val + 8 * i.val)

/-- `RDS`: a read of `STATUS`. -/
def scriptRds : List HostStep := [.read 64 0x248]

/-- A command line: its word, zero-extended, written to `CMD`. -/
def scriptCommand (i : Instr) : List HostStep := [.write 64 0x240 (encode i)]

/-- `RAW w`: an arbitrary word written to `CMD`. -/
def scriptRaw (w : Word) : List HostStep := [.write 64 0x240 w]

/-- `RESET`. -/
def scriptReset : List HostStep := [.reset]

end Sys2Proof.Machine
end

