-- ==== Sys2Proof/Machine/Step.lean ====
section
/-! DEFINITION. The step of the machine, and the placing of a command where the next step runs it. -/

namespace Sys2Proof.Machine

/-- One atomic step of the host or of the core (00_scope.md R10). -/
def step (s : State) : Host.Outcome State Fault Refusal := turn s

/-- `s` with the command whose table bits are `w` latched, so that the next step completes it. The block
fetches nothing (10_state.md R38): this stands for the host write to `CMD` that issues it (R88). -/
def State.withFetchWord (s : State) (nbits w : Nat) : State := latchForFetch s nbits w

end Sys2Proof.Machine
end

