-- ==== Sys2Proof/Safety.lean ====
section
/-! DEFINITION. What counts as a sound state, a command used within its contract, and a finished or
failed run, in the terms the statements use. -/

namespace Sys2Proof.Safety

open Sys2Proof.Machine

/-- The machine's invariant: with a command in flight, the latched word decodes to a legal command
(30_encoding.md R89) and `ILL` is 0, since nothing is latched while it is 1 (R88, R143). -/
def Sound (s : State) : Prop :=
  s.busy = true → (∃ i, decodeLatched s.cmdr = .ok i) ∧ s.ill = false

/-- The command's duty of content is met by the registers as they stand (70_reset_and_hazards.md R168):
its sources are in range, or its condition word is a condition. -/
def inContract (i : Instr) (s : State) : Bool :=
  match i with
  | .ccopy _ _ kc => sourceCond s kc != .neither
  | .fadd _ ra rb => decide (InQ (sourceVal s ra)) && decide (InQ (sourceVal s rb))
  | .fmul _ ra rb => decide (InQ (sourceVal s ra)) && decide (InQ (sourceVal s rb))
  | .smul _ ra rb => decide (InN (sourceVal s ra)) && decide (InN (sourceVal s rb))

/-- A run has ended: the script is done and no command is in flight (R173). -/
def ended (s : State) : Bool := s.port.isEmpty && !s.busy

/-- A run has gone wrong: `ILL = 1` (R173, U5). -/
def wentWrong (s : State) : Bool := s.ill

/-- The host's start-up check of `CFG` against its own data width and limb count (R166). -/
def startUpCheck (s : State) (hostWidth hostLimbs : Nat) : Bool :=
  ((winRead s 0x250).extractLsb' 0 8).toNat == hostWidth
    && ((winRead s 0x250).extractLsb' 8 8).toNat == hostLimbs

/-- The destination element register of a command (R81). -/
def destOf : Instr → EReg
  | .ccopy rd _ _ => rd
  | .fadd rd _ _ => rd
  | .fmul rd _ _ => rd
  | .smul rd _ _ => rd

end Sys2Proof.Safety
end

