-- ==== Sys2Proof/Certificates/Slice0/Obligations.lean ====
section
/-! DEFINITION. The statements for the provers, one definition each; OBLIGATIONS.json lists them with
the rules of spec/ they formalise. -/

open Sys2Proof Sys2Proof.Machine Sys2Proof.Safety

/-! ## Encoding -/

/-- Decoding an encoded command gives it back, and every datum that decodes to a command is that
command's encoding, so no bit of a legal word is dropped (30_encoding.md section 4; T-9). -/
def Obligations.DecodeInvertsEncode : Prop :=
  (∀ i : Instr, decode (encode i) = .ok i) ∧
  (∀ (v : Word) (i : Instr), decode v = .ok i → encode i = v)

/-- R83: a 64-bit datum, and a 16-bit word, is the named command exactly when masking gives its match
word, for each of the four rows. -/
def Obligations.OpcodeMapByMaskAndMatch : Prop :=
  (∀ v : Word,
    ((∃ rd ra kc, decode v = .ok (.ccopy rd ra kc)) ↔ v &&& 0xFFFFFFFFFFFFF007 = 0x1000) ∧
    ((∃ rd ra rb, decode v = .ok (.fadd rd ra rb)) ↔ v &&& 0xFFFFFFFFFFFFF007 = 0x2000) ∧
    ((∃ rd ra rb, decode v = .ok (.fmul rd ra rb)) ↔ v &&& 0xFFFFFFFFFFFFF007 = 0x3000) ∧
    ((∃ rd ra rb, decode v = .ok (.smul rd ra rb)) ↔ v &&& 0xFFFFFFFFFFFFF007 = 0x4000)) ∧
  (∀ c : BitVec 16,
    ((∃ rd ra kc, decodeLatched c = .ok (.ccopy rd ra kc)) ↔ c &&& 0xF007 = 0x1000) ∧
    ((∃ rd ra rb, decodeLatched c = .ok (.fadd rd ra rb)) ↔ c &&& 0xF007 = 0x2000) ∧
    ((∃ rd ra rb, decodeLatched c = .ok (.fmul rd ra rb)) ↔ c &&& 0xF007 = 0x3000) ∧
    ((∃ rd ra rb, decodeLatched c = .ok (.smul rd ra rb)) ↔ c &&& 0xF007 = 0x4000))

/-- R85: the datum is illegal exactly when one of the three conditions holds, said here on the number
the datum is; and issuing any illegal datum (with `ILL = 0`) does the same, `ILL <- 1` and no more. -/
def Obligations.IllegalDataAndTheirOneEffect : Prop :=
  (∀ v : Word, (∃ why, decode v = .error why) ↔
    (v.toNat / 2 ^ 16 ≠ 0 ∨
      (v.toNat / 2 ^ 12 % 16 = 0 ∨ 5 ≤ v.toNat / 2 ^ 12 % 16) ∨
      v.toNat % 8 ≠ 0)) ∧
  (∀ (s : State) (v : Word), s.ill = false →
    (v.toNat / 2 ^ 16 ≠ 0 ∨
      (v.toNat / 2 ^ 12 % 16 = 0 ∨ 5 ≤ v.toNat / 2 ^ 12 % 16) ∨
      v.toNat % 8 ≠ 0) →
    issue s v = { s with ill := true })

/-- R84: of the `2^16` command words 2048 are legal, 512 for each opcode, and 63488 are illegal. -/
def Obligations.LegalWordCount : Prop :=
  Set.ncard {c : BitVec 16 | ∃ rd ra kc, decodeLatched c = .ok (.ccopy rd ra kc)} = 512 ∧
  Set.ncard {c : BitVec 16 | ∃ rd ra rb, decodeLatched c = .ok (.fadd rd ra rb)} = 512 ∧
  Set.ncard {c : BitVec 16 | ∃ rd ra rb, decodeLatched c = .ok (.fmul rd ra rb)} = 512 ∧
  Set.ncard {c : BitVec 16 | ∃ rd ra rb, decodeLatched c = .ok (.smul rd ra rb)} = 512 ∧
  Set.ncard {c : BitVec 16 | ∃ i, decodeLatched c = .ok i} = 2048 ∧
  Set.ncard {c : BitVec 16 | ∃ why, decodeLatched c = .error why} = 63488

/-- R92: the encoding examples, each word both encoded and decoded, and the four illegal ones. -/
def Obligations.EncodingExamples : Prop :=
  (encode (.ccopy 0 1 0) = 0x1040 ∧ decode 0x1040 = .ok (.ccopy 0 1 0)) ∧
  (encode (.ccopy 7 7 7) = 0x1FF8 ∧ decode 0x1FF8 = .ok (.ccopy 7 7 7)) ∧
  (encode (.fadd 2 0 1) = 0x2408 ∧ decode 0x2408 = .ok (.fadd 2 0 1)) ∧
  (encode (.fadd 0 0 0) = 0x2000 ∧ decode 0x2000 = .ok (.fadd 0 0 0)) ∧
  (encode (.fmul 5 4 6) = 0x3B30 ∧ decode 0x3B30 = .ok (.fmul 5 4 6)) ∧
  (encode (.smul 3 1 7) = 0x4678 ∧ decode 0x4678 = .ok (.smul 3 1 7)) ∧
  (∃ why, decode 0x0000 = .error why) ∧ (∃ why, decode 0x2409 = .error why) ∧
  (∃ why, decode 0x5000 = .error why) ∧ (∃ why, decode 0x0000000000012408 = .error why)

/-! ## Conditional copy -/

/-- R103, with the two defined arms of R100: under `True64` every limb of `E[rd]` is the limb of
`E[ra]`, whatever the patterns, so a range property of the source holds of the destination; under
`False64` every limb stays. No other register or bit changes. -/
def Obligations.CcopyCopiesEveryPattern : Prop :=
  ∀ (s : State) (rd ra : EReg) (kc : KReg),
    (readCond s kc = 0xFFFFFFFFFFFFFFFF → ∃ t, exec (.ccopy rd ra kc) s = .next t ∧
      (∀ i, readLimb t rd i = readLimb s ra i) ∧
      (InQ (sourceVal s ra) → InQ (sourceVal t rd)) ∧
      (InN (sourceVal s ra) → InN (sourceVal t rd)) ∧
      (∀ r, r ≠ rd → readElem t r = readElem s r) ∧
      t.k = s.k ∧ t.busy = s.busy ∧ t.cmdr = s.cmdr ∧ t.ill = s.ill ∧
      t.port = s.port ∧ t.answers = s.answers ∧ t.draws = s.draws) ∧
    (readCond s kc = 0 → ∃ t, exec (.ccopy rd ra kc) s = .next t ∧
      (∀ r i, readLimb t r i = readLimb s r i) ∧
      (InQ (sourceVal s rd) → InQ (sourceVal t rd)) ∧
      (InN (sourceVal s rd) → InN (sourceVal t rd)) ∧
      t.k = s.k ∧ t.busy = s.busy ∧ t.cmdr = s.cmdr ∧ t.ill = s.ill ∧
      t.port = s.port ∧ t.answers = s.answers ∧ t.draws = s.draws)

/-- R101: `0` is the one false word and all-ones the one true word; under any other word the command
completes, sets no bit, and changes nothing but `E[rd]`, of which nothing more is said. -/
def Obligations.CcopyConditionWords : Prop :=
  ∀ (s : State) (rd ra : EReg) (kc : KReg), ∃ t, exec (.ccopy rd ra kc) s = .next t ∧
    (readCond s kc = 0 → readElem t rd = readElem s rd) ∧
    (readCond s kc = 0xFFFFFFFFFFFFFFFF → readElem t rd = readElem s ra) ∧
    (∀ r, r ≠ rd → readElem t r = readElem s r) ∧
    t.k = s.k ∧ t.busy = s.busy ∧ t.cmdr = s.cmdr ∧ t.ill = s.ill ∧
    t.port = s.port ∧ t.answers = s.answers

/-- R104: with one register as source and destination, either condition word leaves it unchanged; under
any other word the command completes and changes nothing but that register, whose value is open. -/
def Obligations.CcopySameRegister : Prop :=
  ∀ (s : State) (d : EReg) (kc : KReg), ∃ t, exec (.ccopy d d kc) s = .next t ∧
    (readCond s kc = 0xFFFFFFFFFFFFFFFF ∨ readCond s kc = 0 → readElem t d = readElem s d) ∧
    (∀ r, r ≠ d → readElem t r = readElem s r) ∧
    t.k = s.k ∧ t.busy = s.busy ∧ t.cmdr = s.cmdr ∧ t.ill = s.ill ∧
    t.port = s.port ∧ t.answers = s.answers

/-- The mask form of the select agrees with the two condition words' meaning (R105, general knowledge
in the spec: log entry 10), limb patterns free. -/
def Obligations.MaskSelectAgreesOnConditions : Prop :=
  ∀ src dst : Elem,
    maskSelectElem 0xFFFFFFFFFFFFFFFF src dst = src ∧ maskSelectElem 0 src dst = dst

/-- R106: the three-command conditional swap `CCOPY Et, Ex, Ktrue; CCOPY Ex, Ey, Kc; CCOPY Ey, Et, Kc`
exchanges `Ex` and `Ey` under `True64` and leaves them under `False64`, for all patterns. -/
def Obligations.ConditionalSwap : Prop :=
  ∀ (s : State) (x y w : EReg) (ktrue kc : KReg), w ≠ x → w ≠ y →
    readCond s ktrue = 0xFFFFFFFFFFFFFFFF →
    (readCond s kc = 0xFFFFFFFFFFFFFFFF ∨ readCond s kc = 0) →
    ∃ t1 t2 t3, exec (.ccopy w x ktrue) s = .next t1 ∧ exec (.ccopy x y kc) t1 = .next t2 ∧
      exec (.ccopy y w kc) t2 = .next t3 ∧
      (readCond s kc = 0xFFFFFFFFFFFFFFFF →
        readElem t3 x = readElem s y ∧ readElem t3 y = readElem s x) ∧
      (readCond s kc = 0 → readElem t3 x = readElem s x ∧ readElem t3 y = readElem s y) ∧
      (∀ r, r ≠ x → r ≠ y → r ≠ w → readElem t3 r = readElem s r) ∧ t3.k = s.k

/-! ## Field addition -/

/-- R111: for in-range sources `FADD` leaves `(a + b) mod Q`, below `Q`, in the destination; nothing
else changes. -/
def Obligations.FaddContract : Prop :=
  ∀ (s : State) (rd ra rb : EReg), InQ (sourceVal s ra) → InQ (sourceVal s rb) →
    ∃ t, exec (.fadd rd ra rb) s = .next t ∧
      sourceVal t rd = (sourceVal s ra + sourceVal s rb) % primeQ ∧ InQ (sourceVal t rd) ∧
      (∀ r, r ≠ rd → readElem t r = readElem s r) ∧
      t.k = s.k ∧ t.busy = s.busy ∧ t.cmdr = s.cmdr ∧ t.ill = s.ill ∧
      t.port = s.port ∧ t.answers = s.answers ∧ t.draws = s.draws

/-- R112: for in-range sources, which of the three paths is taken and its result; each path is reached;
and the identities the rule lists. -/
def Obligations.FaddThreePaths : Prop :=
  (∀ a b : Nat, InQ a → InQ b →
    ((carryOut a b = false ∧ rawSum a b < primeQ) ↔ a + b < primeQ) ∧
    ((carryOut a b = false ∧ primeQ ≤ rawSum a b) ↔ (primeQ ≤ a + b ∧ a + b < 2 ^ 384)) ∧
    (carryOut a b = true ↔ (2 ^ 384 ≤ a + b ∧ a + b ≤ 2 * primeQ - 2)) ∧
    (a + b < primeQ → fieldSum a b = a + b) ∧
    (primeQ ≤ a + b → a + b < 2 ^ 384 →
      fieldSum a b = a + b - primeQ ∧ fieldSum a b < 2 ^ 384 - primeQ) ∧
    (2 ^ 384 ≤ a + b → fieldSum a b = a + b - primeQ ∧ rawSum a b = a + b - 2 ^ 384 ∧
      rawSum a b < primeQ) ∧
    fieldSum a 0 = a ∧ fieldSum 0 b = b ∧ fieldSum a b = fieldSum b a ∧
    (0 < a → fieldSum a (primeQ - a) = 0)) ∧
  2 ^ 384 - primeQ = 2 ^ 128 + 2 ^ 96 - 2 ^ 32 + 1 ∧
  2 ^ 383 < primeQ ∧ primeQ < 2 ^ 384 ∧
  fieldSum (primeQ - 1) 1 = 0 ∧ fieldSum (primeQ - 1) (primeQ - 1) = primeQ - 2

/-- R113: for any two patterns `FADD` completes with the algorithm's value: `(a + b) mod Q` whenever
`a + b < 2Q`, and `(a + b - Q) mod 2^384` when `a + b >= 2Q`. The rule's two examples. -/
def Obligations.FaddOutsideContract : Prop :=
  (∀ (s : State) (rd ra rb : EReg), ∃ t, exec (.fadd rd ra rb) s = .next t ∧
    (sourceVal s ra + sourceVal s rb < 2 * primeQ →
      sourceVal t rd = (sourceVal s ra + sourceVal s rb) % primeQ) ∧
    (2 * primeQ ≤ sourceVal s ra + sourceVal s rb →
      sourceVal t rd = (sourceVal s ra + sourceVal s rb - primeQ) % 2 ^ 384) ∧
    t.ill = s.ill ∧ t.busy = s.busy) ∧
  (∀ (s : State) (rd ra rb : EReg),
    (sourceVal s ra = 2 ^ 384 - 1 → sourceVal s rb = 0 →
      ∃ t, exec (.fadd rd ra rb) s = .next t ∧ sourceVal t rd = 2 ^ 384 - 1 - primeQ) ∧
    (sourceVal s ra = primeQ → sourceVal s rb = primeQ →
      ∃ t, exec (.fadd rd ra rb) s = .next t ∧ sourceVal t rd = primeQ))

/-- The branching form of R110 and the always-subtract-then-select form of R114 are one function on
all pairs of patterns (T-2). -/
def Obligations.FaddSelectFormAgrees : Prop :=
  ∀ a b : Nat, a < 2 ^ 384 → b < 2 ^ 384 → fieldSumSelect a b = fieldSum a b

/-- R116: what the limb-serial add, subtract and compare compute over six limbs, as numbers and limb by
limb from a carry and a borrow of 0, and that the adder built of them writes the limbs of R110's sum. -/
def Obligations.LimbSerialAdderAgrees : Prop :=
  (∀ x y : Elem,
    elemVal (addLimbs x y).1 + (addLimbs x y).2 * 2 ^ 384 = elemVal x + elemVal y ∧
    (addLimbs x y).2 ≤ 1 ∧
    elemVal (subLimbs x y).1 + elemVal y = elemVal x + (subLimbs x y).2 * 2 ^ 384 ∧
    (subLimbs x y).2 ≤ 1 ∧
    (lessLimbs x y = true ↔ elemVal x < elemVal y)) ∧
  (∀ x y : Elem, ∃ c b : Nat → Nat, c 0 = 0 ∧ b 0 = 0 ∧
    (∀ i : Fin 6,
      ((addLimbs x y).1[i]).toNat = (x[i].toNat + y[i].toNat + c i.val) % 2 ^ 64 ∧
      c (i.val + 1) = (x[i].toNat + y[i].toNat + c i.val) / 2 ^ 64 ∧
      ((subLimbs x y).1[i]).toNat = (x[i].toNat + 2 ^ 64 - (y[i].toNat + b i.val)) % 2 ^ 64 ∧
      b (i.val + 1) = if x[i].toNat < y[i].toNat + b i.val then 1 else 0) ∧
    (addLimbs x y).2 = c 6 ∧ (subLimbs x y).2 = b 6) ∧
  (∀ x y : Elem, fieldSumLimbs x y = elemLimbs (fieldSum (elemVal x) (elemVal y)))

/-- R115: any registers may coincide, both sources are read first: in place, and doubling. -/
def Obligations.FaddSameRegisters : Prop :=
  ∀ (s : State) (d a b : EReg),
    (∃ t, exec (.fadd d d b) s = .next t ∧
      sourceVal t d = fieldSum (sourceVal s d) (sourceVal s b)) ∧
    (∃ t, exec (.fadd d a d) s = .next t ∧
      sourceVal t d = fieldSum (sourceVal s a) (sourceVal s d)) ∧
    (InQ (sourceVal s a) → ∃ t, exec (.fadd d a a) s = .next t ∧
      sourceVal t d = 2 * sourceVal s a % primeQ) ∧
    (InQ (sourceVal s d) → ∃ t, exec (.fadd d d d) s = .next t ∧
      sourceVal t d = 2 * sourceVal s d % primeQ)

/-! ## Montgomery multiplication -/

/-- `FMUL` on in-range sources: the destination is `a * b * Rinv_Q mod Q`, below `Q`, and times
`2^384` it is `a * b` modulo `Q`; nothing else changes (42_mont_mul.md sections 1 and 2). -/
def Obligations.FmulContract : Prop :=
  ∀ (s : State) (rd ra rb : EReg), InQ (sourceVal s ra) → InQ (sourceVal s rb) →
    ∃ t, exec (.fmul rd ra rb) s = .next t ∧
      sourceVal t rd = sourceVal s ra * sourceVal s rb * rinvQ % primeQ ∧
      sourceVal t rd * 2 ^ 384 % primeQ = sourceVal s ra * sourceVal s rb % primeQ ∧
      InQ (sourceVal t rd) ∧
      (∀ r, r ≠ rd → readElem t r = readElem s r) ∧
      t.k = s.k ∧ t.busy = s.busy ∧ t.cmdr = s.cmdr ∧ t.ill = s.ill ∧
      t.port = s.port ∧ t.answers = s.answers ∧ t.draws = s.draws

/-- `SMUL` on in-range sources: the same modulo `N` (42_mont_mul.md sections 1 and 2). -/
def Obligations.SmulContract : Prop :=
  ∀ (s : State) (rd ra rb : EReg), InN (sourceVal s ra) → InN (sourceVal s rb) →
    ∃ t, exec (.smul rd ra rb) s = .next t ∧
      sourceVal t rd = sourceVal s ra * sourceVal s rb * rinvN % orderN ∧
      sourceVal t rd * 2 ^ 384 % orderN = sourceVal s ra * sourceVal s rb % orderN ∧
      InN (sourceVal t rd) ∧
      (∀ r, r ≠ rd → readElem t r = readElem s r) ∧
      t.k = s.k ∧ t.busy = s.busy ∧ t.cmdr = s.cmdr ∧ t.ill = s.ill ∧
      t.port = s.port ∧ t.answers = s.answers ∧ t.draws = s.draws

/-- R125: a source of `FMUL` at `Q` or more, or of `SMUL` at `N` or more, is not detected: the command
completes, sets no bit and changes nothing but `E[rd]`, of which nothing more is said. A value in `[N, Q)`
is such a source for `SMUL`. -/
def Obligations.MultiplierOutOfRange : Prop :=
  (∀ (s : State) (rd ra rb : EReg), primeQ ≤ sourceVal s ra ∨ primeQ ≤ sourceVal s rb →
    ∃ t, exec (.fmul rd ra rb) s = .next t ∧
      (∀ r, r ≠ rd → readElem t r = readElem s r) ∧
      t.k = s.k ∧ t.busy = s.busy ∧ t.cmdr = s.cmdr ∧ t.ill = s.ill ∧
      t.port = s.port ∧ t.answers = s.answers) ∧
  (∀ (s : State) (rd ra rb : EReg), orderN ≤ sourceVal s ra ∨ orderN ≤ sourceVal s rb →
    ∃ t, exec (.smul rd ra rb) s = .next t ∧
      (∀ r, r ≠ rd → readElem t r = readElem s r) ∧
      t.k = s.k ∧ t.busy = s.busy ∧ t.cmdr = s.cmdr ∧ t.ill = s.ill ∧
      t.port = s.port ∧ t.answers = s.answers)

/-- Where the spec writes `any` (R13, R101, R125), each limb of the destination is a free value no earlier
draw gave: six limbs of the constant `Config.freeLimb`, which has no value, at the places the draw counter
names, and the counter moves on by six, so that two such commands have nothing to do with one another. The
counter is the model's choice (log entry 1); this holds for every value the free limbs could have. -/
def Obligations.UnfixedResultsAreFreshDraws : Prop :=
  (∀ (s : State) (rd ra : EReg) (kc : KReg),
    readCond s kc ≠ 0 → readCond s kc ≠ 0xFFFFFFFFFFFFFFFF →
    ∃ t, exec (.ccopy rd ra kc) s = .next t ∧ t.draws = s.draws + 6 ∧
      ∀ i : Fin 6, readLimb t rd i = Config.freeLimb (s.draws + i.val)) ∧
  (∀ (s : State) (rd ra rb : EReg), primeQ ≤ sourceVal s ra ∨ primeQ ≤ sourceVal s rb →
    ∃ t, exec (.fmul rd ra rb) s = .next t ∧ t.draws = s.draws + 6 ∧
      ∀ i : Fin 6, readLimb t rd i = Config.freeLimb (s.draws + i.val)) ∧
  (∀ (s : State) (rd ra rb : EReg), orderN ≤ sourceVal s ra ∨ orderN ≤ sourceVal s rb →
    ∃ t, exec (.smul rd ra rb) s = .next t ∧ t.draws = s.draws + 6 ∧
      ∀ i : Fin 6, readLimb t rd i = Config.freeLimb (s.draws + i.val))

/-- R124: the consequences the rule lists, for each of the two moduli with its inverse of the radix. -/
def Obligations.MontgomeryConsequences : Prop :=
  ∀ m rinv : Nat, (m = primeQ ∧ rinv = rinvQ ∨ m = orderN ∧ rinv = rinvN) →
    ∀ a b : Nat, a < m → b < m →
      montMul a b m rinv < m ∧
      montMul a b m rinv = montMul b a m rinv ∧
      montMul 0 b m rinv = 0 ∧ montMul a 0 m rinv = 0 ∧
      montMul a (2 ^ 384 % m) m rinv = a ∧
      montMul a 1 m rinv = a * rinv % m ∧
      montMul (a * 2 ^ 384 % m) (b * 2 ^ 384 % m) m rinv = a * b * 2 ^ 384 % m ∧
      montMul (a * 2 ^ 384 % m) b m rinv = a * b % m ∧
      montMul (m - 1) (m - 1) m rinv = rinv ∧ montMul 1 1 m rinv = rinv

/-- R128: `FMUL` by `RR_Q` takes a value into Montgomery form and `FMUL` by 1 out of it, likewise
`SMUL` with `RR_N`; and the plain product by converting both, multiplying and converting back, or by
converting one. -/
def Obligations.MontgomeryConversions : Prop :=
  (∀ (s : State) (d a c : EReg), InQ (sourceVal s a) →
    (sourceVal s c = rrQ → ∃ t, exec (.fmul d a c) s = .next t ∧ sourceVal t d = montQ (sourceVal s a)) ∧
    (sourceVal s c = 1 → ∃ t, exec (.fmul d a c) s = .next t ∧
      sourceVal t d = sourceVal s a * rinvQ % primeQ)) ∧
  (∀ (s : State) (d a c : EReg), InN (sourceVal s a) →
    (sourceVal s c = rrN → ∃ t, exec (.smul d a c) s = .next t ∧ sourceVal t d = montN (sourceVal s a)) ∧
    (sourceVal s c = 1 → ∃ t, exec (.smul d a c) s = .next t ∧
      sourceVal t d = sourceVal s a * rinvN % orderN)) ∧
  (∀ x y : Nat, InQ x → InQ y →
    montMul (montMul (montMul x rrQ primeQ rinvQ) (montMul y rrQ primeQ rinvQ) primeQ rinvQ) 1
      primeQ rinvQ = x * y % primeQ ∧
    montMul (montMul x rrQ primeQ rinvQ) y primeQ rinvQ = x * y % primeQ) ∧
  (∀ x y : Nat, InN x → InN y →
    montMul (montMul (montMul x rrN orderN rinvN) (montMul y rrN orderN rinvN) orderN rinvN) 1
      orderN rinvN = x * y % orderN ∧
    montMul (montMul x rrN orderN rinvN) y orderN rinvN = x * y % orderN)

/-- The word-serial reference algorithm computes the Montgomery product of in-range sources, for both
moduli with their reduction constants (R129, general knowledge in the spec: log entry 10; T-3). -/
def Obligations.ReferenceKernelAgrees : Prop :=
  (∀ x y : Elem, InQ (elemVal x) → InQ (elemVal y) →
    montMulRef x (elemVal y) primeQ qN0 = montMul (elemVal x) (elemVal y) primeQ rinvQ) ∧
  (∀ x y : Elem, InN (elemVal x) → InN (elemVal y) →
    montMulRef x (elemVal y) orderN nN0 = montMul (elemVal x) (elemVal y) orderN rinvN)

/-- R132: operands of the other kind are not detected: on sources below `N` each multiplier gives the
in-range product for its own modulus. -/
def Obligations.MultipliersDifferInModulusOnly : Prop :=
  ∀ (s : State) (rd ra rb : EReg), InN (sourceVal s ra) → InN (sourceVal s rb) →
    ∃ tq tn, exec (.fmul rd ra rb) s = .next tq ∧ exec (.smul rd ra rb) s = .next tn ∧
      sourceVal tq rd = sourceVal s ra * sourceVal s rb * rinvQ % primeQ ∧
      sourceVal tn rd = sourceVal s ra * sourceVal s rb * rinvN % orderN ∧
      InQ (sourceVal tq rd) ∧ InN (sourceVal tn rd) ∧ tq.ill = s.ill ∧ tn.ill = s.ill

/-- R126: both sources are read before the destination is written, whichever registers coincide;
squaring. -/
def Obligations.MultiplierSameRegisters : Prop :=
  (∀ (s : State) (d a b : EReg), InQ (sourceVal s d) → InQ (sourceVal s a) → InQ (sourceVal s b) →
    (∃ t, exec (.fmul d d b) s = .next t ∧
      sourceVal t d = sourceVal s d * sourceVal s b * rinvQ % primeQ) ∧
    (∃ t, exec (.fmul d a d) s = .next t ∧
      sourceVal t d = sourceVal s a * sourceVal s d * rinvQ % primeQ) ∧
    (∃ t, exec (.fmul d a a) s = .next t ∧ sourceVal t d = sourceVal s a ^ 2 * rinvQ % primeQ) ∧
    (∃ t, exec (.fmul d d d) s = .next t ∧ sourceVal t d = sourceVal s d ^ 2 * rinvQ % primeQ)) ∧
  (∀ (s : State) (d a b : EReg), InN (sourceVal s d) → InN (sourceVal s a) → InN (sourceVal s b) →
    (∃ t, exec (.smul d d b) s = .next t ∧
      sourceVal t d = sourceVal s d * sourceVal s b * rinvN % orderN) ∧
    (∃ t, exec (.smul d a d) s = .next t ∧
      sourceVal t d = sourceVal s a * sourceVal s d * rinvN % orderN) ∧
    (∃ t, exec (.smul d a a) s = .next t ∧ sourceVal t d = sourceVal s a ^ 2 * rinvN % orderN) ∧
    (∃ t, exec (.smul d d d) s = .next t ∧ sourceVal t d = sourceVal s d ^ 2 * rinvN % orderN))

/-! ## Frames, completion and isolation of all commands -/

/-- Every command completes, on every state and all operands, and changes no register but its
destination, no condition register, no status bit, no pending step and no answer, and no byte of the
window outside the 48 bytes of `E[rd]`; within its contract it draws no free value (T-8; the draw counter
is the model's own, log entry 1). -/
def Obligations.CommandFrame : Prop :=
  ∀ (i : Instr) (s : State), ∃ t, exec i s = .next t ∧
    (∀ r, r ≠ destOf i → readElem t r = readElem s r) ∧
    t.k = s.k ∧ t.busy = s.busy ∧ t.cmdr = s.cmdr ∧ t.ill = s.ill ∧
    t.port = s.port ∧ t.answers = s.answers ∧
    (∀ a, a < 0x300 → (a < 0x40 * (destOf i).val ∨ 0x40 * (destOf i).val + 48 ≤ a) →
      windowByte t a = windowByte s a) ∧
    (inContract i s = true → t.draws = s.draws)

/-- A command within its contract is a function of its own operands alone: two states that agree on
the registers it names, in range, and on nothing else, get the same destination (10_state.md section 6). -/
def Obligations.CommandReadsOnlyItsOperands : Prop :=
  (∀ (s u : State) (rd ra : EReg) (kc : KReg),
    readElem s ra = readElem u ra → readElem s rd = readElem u rd → readCond s kc = readCond u kc →
    inContract (.ccopy rd ra kc) s = true →
    ∃ t w, exec (.ccopy rd ra kc) s = .next t ∧ exec (.ccopy rd ra kc) u = .next w ∧
      readElem t rd = readElem w rd) ∧
  (∀ (s u : State) (rd ra rb : EReg),
    readElem s ra = readElem u ra → readElem s rb = readElem u rb →
    (∃ t w, exec (.fadd rd ra rb) s = .next t ∧ exec (.fadd rd ra rb) u = .next w ∧
      readElem t rd = readElem w rd) ∧
    (inContract (.fmul rd ra rb) s = true → ∃ t w, exec (.fmul rd ra rb) s = .next t ∧
      exec (.fmul rd ra rb) u = .next w ∧ readElem t rd = readElem w rd) ∧
    (inContract (.smul rd ra rb) s = true → ∃ t w, exec (.smul rd ra rb) s = .next t ∧
      exec (.smul rd ra rb) u = .next w ∧ readElem t rd = readElem w rd))

/-! ## Issue and completion -/

/-- When the latched word decodes to a command and the turn is the core's (nothing pending, a wait at
the head, or a legal access that the interlock holds at the head), a step is that command's `exec` and
then `BUSY <- 0`. The wait is the model's own mark of a core's turn (log entry 3). -/
def Obligations.StepRunsLatchedCommand : Prop :=
  ∀ (s : State) (i : Instr), s.busy = true → decodeLatched s.cmdr = .ok i →
    (s.port = [] → step s = finish (exec i s)) ∧
    (∀ rest, s.port = .wait :: rest → step s = finish (exec i { s with port := rest })) ∧
    (∀ off rest, off % 8 = 0 → off < 0x248 → s.port = .read 64 off :: rest →
      step s = finish (exec i s)) ∧
    (∀ off v rest, off % 8 = 0 → off < 0x248 → s.port = .write 64 off v :: rest →
      step s = finish (exec i s)) ∧
    (∀ u t, exec i u = .next t → finish (exec i u) = .next { t with busy := false })

/-- In a sound state with a command in flight and nothing pending at the port, the step is a
`Complete`: it always succeeds, clears `BUSY`, and changes no element register but the destination,
no condition register, not `CMDR` and not `ILL`; with `BUSY = 0` there is no such step and the block
keeps its state (30_encoding.md section 5; that an idle turn is a step is the model's choice, log entry 5). -/
def Obligations.CompleteAlwaysSucceeds : Prop :=
  (∀ s : State, Sound s → s.busy = true → s.port = [] →
    ∃ i t, decodeLatched s.cmdr = .ok i ∧ step s = .next t ∧ t.busy = false ∧
      (∀ r, r ≠ destOf i → readElem t r = readElem s r) ∧
      t.k = s.k ∧ t.cmdr = s.cmdr ∧ t.ill = s.ill ∧ t.port = [] ∧ t.answers = s.answers) ∧
  (∀ s : State, s.busy = false → s.port = [] → step s = .next s)

/-- R88: `Issue(v)` as a step of the port with `BUSY = 0`: discarded while `ILL = 1`; `ILL <- 1` for an
illegal datum; `CMDR <- v[15:0]` and `BUSY <- 1` for a command. No element or condition register is
read or changed. -/
def Obligations.IssueByCmdWrite : Prop :=
  ∀ (s : State) (v : Word) (rest : List HostStep), s.busy = false →
    s.port = .write 64 0x240 v :: rest →
    (s.ill = true → step s = .next { s with port := rest }) ∧
    (s.ill = false → (∀ i, decode v ≠ .ok i) → step s = .next { s with port := rest, ill := true }) ∧
    (s.ill = false → ∀ i, decode v = .ok i →
      step s = .next { s with port := rest, busy := true, cmdr := v.extractLsb' 0 16 })

/-- Issuing a command and completing it, with no host step between, is one fused step: the state
after both is the command's effect on the state before, with the word latched (00_scope.md section 5;
30_encoding.md section 5). The wait that gives the core its turn is the model's own (log entry 3). -/
def Obligations.IssueThenCompleteFuses : Prop :=
  ∀ (s : State) (i : Instr) (rest : List HostStep), s.busy = false → s.ill = false →
    s.port = .write 64 0x240 (encode i) :: .wait :: rest →
    ∃ t, exec i s = .next t ∧
      Host.Core.run core 2 s =
        .next { t with busy := false, cmdr := (encode i).setWidth 16, port := rest }

/-- A read of the destination right after the `CMD` write is held until the command has completed and
answers the command's result (20_memory.md section 5, guarantee (b); program P8). -/
def Obligations.HeldReadAnswersTheResult : Prop :=
  ∀ (s : State) (i : Instr) (j : Fin 6) (rest : List HostStep), s.busy = false → s.ill = false →
    s.port = .write 64 0x240 (encode i) :: .read 64 (0x40 * (destOf i).val + 8 * j.val) :: rest →
    ∃ t u, exec i s = .next t ∧ Host.Core.run core 3 s = .next u ∧
      u.answers = readLimb t (destOf i) j :: s.answers ∧ u.e = t.e ∧ u.busy = false ∧ u.port = rest

/-- R141: a datum that is no command, written to `CMD` with `ILL = 0` and `BUSY = 0`, sets `ILL` and
nothing else: the word is not latched, `BUSY` stays 0, `CMDR`, `E`, `K` are unchanged. Nothing else raises
the event, and the step that raises it is that write, with every earlier command completed. -/
def Obligations.IllegalEventIsPrecise : Prop :=
  (∀ (s : State) (v : Word) (rest : List HostStep), s.busy = false → s.ill = false →
    (∀ i, decode v ≠ .ok i) → s.port = .write 64 0x240 v :: rest →
    ∃ t, step s = .next t ∧ t.ill = true ∧ t.busy = false ∧ t.cmdr = s.cmdr ∧ t.e = s.e ∧
      t.k = s.k ∧ t.answers = s.answers ∧ t.draws = s.draws ∧ t.port = rest) ∧
  (∀ s t : State, step s = .next t → s.ill = false → t.ill = true →
    s.busy = false ∧ ∃ v rest, s.port = .write 64 0x240 v :: rest ∧ ∀ i, decode v ≠ .ok i)

/-- R143: while `ILL = 1` every `CMD` write, legal or not, is accepted and discarded, and the host's
reads and writes of the registers, `STATUS`, `CFG` and the constants work as always. -/
def Obligations.CommandsDiscardedWhileIll : Prop :=
  ∀ (s : State) (rest : List HostStep), Sound s → s.ill = true →
    (∀ v, s.port = .write 64 0x240 v :: rest → step s = .next { s with port := rest }) ∧
    (∀ off, off % 8 = 0 → off < 0x300 → s.port = .read 64 off :: rest →
      step s = .next { s with port := rest, answers := winRead s off :: s.answers }) ∧
    (∀ (r : EReg) (i : Fin 6) (v : Word), s.port = .write 64 (0x40 * r.val + 8 * i.val) v :: rest →
      ∃ t, step s = .next t ∧ readLimb t r i = v ∧ t.ill = true ∧ t.busy = false) ∧
    (∀ (c : KReg) (v : Word), s.port = .write 64 (0x200 + 8 * c.val) v :: rest →
      ∃ t, step s = .next t ∧ readCond t c = v ∧ t.ill = true ∧ t.busy = false)

/-- Over any number of steps in which the host asks for no reset, a set `ILL` stays set, nothing is
latched and no command runs: `BUSY` stays 0, `CMDR` as it was (T-10), and no free value is drawn (the
counter is the model's own, log entry 1). -/
def Obligations.IllEndsOnlyByReset : Prop :=
  ∀ (n : Nat) (s t : State), Sound s → s.ill = true → HostStep.reset ∉ s.port →
    Host.Core.run core n s = .next t →
    t.ill = true ∧ t.busy = false ∧ t.cmdr = s.cmdr ∧ t.draws = s.draws

/-! ## The window and the port -/

/-- R57: what a read of each offset returns, and that a read which is taken up changes no state of the
block. -/
def Obligations.WindowReads : Prop :=
  (∀ s : State,
    (∀ (r : EReg) (i : Fin 6), winRead s (0x40 * r.val + 8 * i.val) = readLimb s r i) ∧
    (∀ c : KReg, winRead s (0x200 + 8 * c.val) = readCond s c) ∧
    (winRead s 0x248).toNat = 2 * s.ill.toNat + s.busy.toNat ∧
    winRead s 0x250 = 0x0000000008080640 ∧
    (∀ i : Fin 6, winRead s (0x280 + 8 * i.val) = (elemLimbs primeQ)[i]) ∧
    winRead s 0x2B0 = qN0 ∧
    (∀ i : Fin 6, winRead s (0x2C0 + 8 * i.val) = (elemLimbs orderN)[i]) ∧
    winRead s 0x2F0 = nN0 ∧
    (∀ off, off % 8 = 0 → off < 0x300 →
      (∀ (r : EReg) (i : Fin 6), off ≠ 0x40 * r.val + 8 * i.val) →
      (∀ c : KReg, off ≠ 0x200 + 8 * c.val) → off ≠ 0x248 → off ≠ 0x250 →
      (∀ i : Fin 6, off ≠ 0x280 + 8 * i.val) → off ≠ 0x2B0 →
      (∀ i : Fin 6, off ≠ 0x2C0 + 8 * i.val) → off ≠ 0x2F0 → winRead s off = 0)) ∧
  (∀ (s : State) (off : Nat) (rest : List HostStep), off % 8 = 0 → off < 0x300 →
    (s.busy = true → 0x248 ≤ off) → s.port = .read 64 off :: rest →
    step s = .next { s with port := rest, answers := winRead s off :: s.answers })

/-- R59: what a write of each offset does when it is taken up: one limb and no other word, one condition
register and no other word, the issue of a command, or nothing. -/
def Obligations.WindowWrites : Prop :=
  ∀ (s : State) (off : Nat) (v : Word) (rest : List HostStep), off % 8 = 0 → off < 0x300 →
    (s.busy = true → 0x248 ≤ off) → s.port = .write 64 off v :: rest →
    (∀ (r : EReg) (i : Fin 6), off = 0x40 * r.val + 8 * i.val →
      ∃ t, step s = .next t ∧ readLimb t r i = v ∧
        (∀ r' i', (r', i') ≠ (r, i) → readLimb t r' i' = readLimb s r' i') ∧
        t.k = s.k ∧ t.busy = s.busy ∧ t.cmdr = s.cmdr ∧ t.ill = s.ill ∧ t.port = rest ∧
        t.answers = s.answers ∧ t.draws = s.draws) ∧
    (∀ c : KReg, off = 0x200 + 8 * c.val →
      ∃ t, step s = .next t ∧ readCond t c = v ∧ (∀ c', c' ≠ c → readCond t c' = readCond s c') ∧
        t.e = s.e ∧ t.busy = s.busy ∧ t.cmdr = s.cmdr ∧ t.ill = s.ill ∧ t.port = rest ∧
        t.answers = s.answers ∧ t.draws = s.draws) ∧
    (off = 0x240 → step s = .next (issue { s with port := rest } v)) ∧
    ((∀ (r : EReg) (i : Fin 6), off ≠ 0x40 * r.val + 8 * i.val) →
      (∀ c : KReg, off ≠ 0x200 + 8 * c.val) → off ≠ 0x240 →
      step s = .next { s with port := rest })

/-- R55: writing a read-only or reserved word that is not held and reading it back returns what it read
before the write and leaves the block's state; reading the write-only `CMD` or a reserved word returns 0. -/
def Obligations.ReadOnlyWordsIgnoreWrites : Prop :=
  (∀ (s : State) (off : Nat) (v : Word) (rest : List HostStep), off % 8 = 0 → off < 0x300 →
    (s.busy = true → 0x248 ≤ off) →
    (∀ (r : EReg) (i : Fin 6), off ≠ 0x40 * r.val + 8 * i.val) → (∀ c : KReg, off ≠ 0x200 + 8 * c.val) →
    off ≠ 0x240 → s.port = .write 64 off v :: .read 64 off :: rest →
    Host.Core.run core 2 s = .next { s with port := rest, answers := winRead s off :: s.answers }) ∧
  (∀ (s : State) (off : Nat), off = 0x240 ∨ (0x258 ≤ off ∧ off ≤ 0x278 ∧ off % 8 = 0) ∨ off = 0x2B8 ∨
    off = 0x2F8 ∨ (∃ r : EReg, off = 0x030 + 0x40 * r.val ∨ off = 0x038 + 0x40 * r.val) →
    winRead s off = 0)

/-- A write of an element limb or a condition register followed by a read of the same offset answers
the value written, every pattern included (20_memory.md sections 4 and 5). -/
def Obligations.ReadAfterWriteAnswersIt : Prop :=
  ∀ (s : State) (off : Nat) (v : Word) (rest : List HostStep), s.busy = false →
    ((∃ (r : EReg) (i : Fin 6), off = 0x40 * r.val + 8 * i.val) ∨ (∃ c : KReg, off = 0x200 + 8 * c.val)) →
    s.port = .write 64 off v :: .read 64 off :: rest →
    ∃ t, Host.Core.run core 2 s = .next t ∧ t.answers = v :: s.answers ∧ t.port = rest ∧
      t.busy = false ∧ t.ill = s.ill

/-- R53: an access of a width other than 64, at an offset that is no multiple of 8, or at `0x300` or
more has no step: it is refused by name in every state. -/
def Obligations.BadAccessRefused : Prop :=
  ∀ (s : State) (width off : Nat) (v : Word) (rest : List HostStep),
    s.port = .read width off :: rest ∨ s.port = .write width off v :: rest →
    width ≠ 64 ∨ off % 8 ≠ 0 ∨ 0x300 ≤ off →
    step s = .refused (.accessWidth width) ∨ step s = .refused (.accessMisaligned off) ∨
      step s = .refused (.accessOutside off)

/-- In a sound state the machine stops for nothing else: a step faults never, and is refused exactly
when an ill-formed access stands at the head of the port. -/
def Obligations.OnlyBadAccessesStop : Prop :=
  ∀ s : State, Sound s →
    (∀ f, step s ≠ .fault f) ∧
    ((∃ r, step s = .refused r) ↔ ∃ h rest, s.port = h :: rest ∧ h.wellFormed = false)

/-- R58: while `BUSY = 1` a legal access below `0x248` has no step: the step taken is the core's, the
access stays at the head unanswered, and it is performed by the step after. A legal access at `0x248` or
above is never held. A reset lifts the hold. -/
def Obligations.InterlockHoldsAccesses : Prop :=
  (∀ (s : State) (off : Nat) (v : Word) (rest : List HostStep), Sound s → s.busy = true →
    off % 8 = 0 → off < 0x248 →
    (s.port = .read 64 off :: rest → ∃ t, step s = .next t ∧ t.busy = false ∧ t.port = s.port ∧
      t.answers = s.answers ∧
      step t = .next { t with port := rest, answers := winRead t off :: t.answers }) ∧
    (s.port = .write 64 off v :: rest → ∃ t, step s = .next t ∧ t.busy = false ∧ t.port = s.port ∧
      t.answers = s.answers ∧ step t = .next (winWrite { t with port := rest } off v)) ∧
    (s.port = .reset :: .read 64 off :: rest → ∃ t, step s = .next t ∧ t.busy = false ∧
      step t = .next { t with port := rest, answers := winRead t off :: t.answers })) ∧
  (∀ (s : State) (off : Nat) (v : Word) (rest : List HostStep), s.busy = true →
    off % 8 = 0 → 0x248 ≤ off → off < 0x300 →
    (s.port = .read 64 off :: rest →
      step s = .next { s with port := rest, answers := winRead s off :: s.answers }) ∧
    (s.port = .write 64 off v :: rest → step s = .next { s with port := rest }))

/-- R54: limb `i` stands at the lower offset than limb `i+1`; byte `off + j` of the window is bits
`8*j+7 : 8*j` of the word at `off`; and the 48 bytes of an element register, in ascending offset order, are
the little-endian bytes of its value. -/
def Obligations.ByteAndLimbOrder : Prop :=
  (∀ (s : State) (off j : Nat), off % 8 = 0 → off < 0x300 → j < 8 →
    (windowByte s (off + j)).toNat = (winRead s off).toNat / 2 ^ (8 * j) % 256) ∧
  (∀ (s : State) (r : EReg) (j : Nat), j < 48 →
    (windowByte s (0x40 * r.val + j)).toNat = sourceVal s r / 256 ^ j % 256)

/-- Six `HostWrite`s of a value's limbs, a `WRE` line of a host script, leave that value in the register
and nothing else changed; six `HostRead`s, an `RDE` line, then answer its limbs (30_encoding.md section 6). -/
def Obligations.ScriptLoadsAndReadsElement : Prop :=
  (∀ (s : State) (r : EReg) (v : Nat) (rest : List HostStep), s.busy = false → v < 2 ^ 384 →
    s.port = scriptWre r v ++ rest →
    ∃ t, Host.Core.run core 6 s = .next t ∧ sourceVal t r = v ∧
      (∀ r', r' ≠ r → readElem t r' = readElem s r') ∧ t.k = s.k ∧ t.busy = false ∧
      t.cmdr = s.cmdr ∧ t.ill = s.ill ∧ t.port = rest ∧ t.answers = s.answers ∧ t.draws = s.draws) ∧
  (∀ (s : State) (r : EReg) (rest : List HostStep), s.busy = false → s.port = scriptRde r ++ rest →
    Host.Core.run core 6 s =
      .next { s with port := rest, answers := (readElem s r).toList.reverse ++ s.answers })

/-! ## Status, constants, reset -/

/-- R35: `STATUS` reads `BUSY` in bit 0, `ILL` in bit 1, zero above; the read has no side effect and is
never held; a write is ignored. -/
def Obligations.StatusRegister : Prop :=
  ∀ (s : State) (v : Word) (rest : List HostStep),
    (winRead s 0x248).getLsbD 0 = s.busy ∧ (winRead s 0x248).getLsbD 1 = s.ill ∧
    (∀ i, 2 ≤ i → (winRead s 0x248).getLsbD i = false) ∧
    winRead State.reset 0x248 = 0 ∧
    (s.port = .read 64 0x248 :: rest →
      step s = .next { s with port := rest, answers := winRead s 0x248 :: s.answers }) ∧
    (s.port = .write 64 0x248 v :: rest → step s = .next { s with port := rest })

/-- R36: the fields of `CFG`, the word a read returns in every state, and that a write is ignored. -/
def Obligations.CfgRegister : Prop :=
  ∀ (s : State) (v : Word) (rest : List HostStep),
    winRead s 0x250 = 0x0000000008080640 ∧
    (winRead s 0x250).extractLsb' 0 8 = 64 ∧ (winRead s 0x250).extractLsb' 8 8 = 6 ∧
    (winRead s 0x250).extractLsb' 16 8 = 8 ∧ (winRead s 0x250).extractLsb' 24 8 = 8 ∧
    (winRead s 0x250).extractLsb' 32 32 = 0 ∧
    (s.port = .write 64 0x250 v :: rest → step s = .next { s with port := rest })

/-- The host's start-up check of `CFG` passes, in every state of the block, exactly for a host whose data
words are 64 bits wide and whose software was built for six limbs (70_reset_and_hazards.md section 2). -/
def Obligations.StartUpCheckPassesExactly : Prop :=
  ∀ (s : State) (hostWidth hostLimbs : Nat),
    startUpCheck s hostWidth hostLimbs = true ↔ hostWidth = 64 ∧ hostLimbs = 6

/-- R29 and R30: each reduction constant is the word that times its modulus is `-1` modulo `2^64`. -/
def Obligations.ReductionConstants : Prop :=
  qN0 = 0x0000000100000001 ∧ primeQ * qN0.toNat % 2 ^ 64 = 2 ^ 64 - 1 ∧
  nN0 = 0x6ed46089e88fdc45 ∧ orderN * nN0.toNat % 2 ^ 64 = 2 ^ 64 - 1

/-- The digits of the moduli against their other descriptions: `Q` by powers of two, both by their limbs,
`N < Q`, both odd (the digits are the spec's general knowledge, log entry 10), and the computed constants
`Rinv`, `ONE` and `RR` of each (10_state.md section 4, 42_mont_mul.md sections 1 and 3). -/
def Obligations.ModulusTableDigits : Prop :=
  primeQ = 2 ^ 384 - 2 ^ 128 - 2 ^ 96 + 2 ^ 32 - 1 ∧
  elemLimbs primeQ = #v[0x00000000ffffffff, 0xffffffff00000000, 0xfffffffffffffffe,
    0xffffffffffffffff, 0xffffffffffffffff, 0xffffffffffffffff] ∧
  elemLimbs orderN = #v[0xecec196accc52973, 0x581a0db248b0a77a, 0xc7634d81f4372ddf,
    0xffffffffffffffff, 0xffffffffffffffff, 0xffffffffffffffff] ∧
  orderN < primeQ ∧ primeQ % 2 = 1 ∧ orderN % 2 = 1 ∧
  rinvQ < primeQ ∧ rinvQ * 2 ^ 384 % primeQ = 1 ∧ rinvN < orderN ∧ rinvN * 2 ^ 384 % orderN = 1 ∧
  oneQ = 2 ^ 384 % primeQ ∧ rrQ = 2 ^ 768 % primeQ ∧
  oneN = 2 ^ 384 % orderN ∧ oneN = 2 ^ 384 - orderN ∧ rrN = 2 ^ 768 % orderN

/-- R24: a scalar in range is a field element in range and not the other way; the values in `[N, Q)`
are in contract for `FADD` and `FMUL` and not for `SMUL`; the registers after reset satisfy both. -/
def Obligations.ScalarRangeInsideFieldRange : Prop :=
  (∀ v, InN v → InQ v) ∧
  (∀ v, orderN ≤ v → v < primeQ → InQ v ∧ ¬ InN v) ∧
  (∃ v, InQ v ∧ ¬ InN v) ∧
  (∀ (s : State) (rd ra rb : EReg), orderN ≤ sourceVal s ra → sourceVal s ra < primeQ →
    InQ (sourceVal s rb) →
    inContract (.fadd rd ra rb) s = true ∧ inContract (.fmul rd ra rb) s = true ∧
    inContract (.smul rd ra rb) s = false) ∧
  (∀ r : EReg, InQ (sourceVal State.reset r) ∧ InN (sourceVal State.reset r))

/-- R42: after `Reset`, from any state, and in the first state of every execution, every element and
condition register, `BUSY`, `ILL` and `CMDR` are 0, `STATUS` reads 0, and the constants and `CFG` read
as they always do. -/
def Obligations.ResetValues : Prop :=
  (∀ r i, readLimb State.reset r i = 0) ∧ (∀ c, readCond State.reset c = 0) ∧
  State.reset.busy = false ∧ State.reset.ill = false ∧ State.reset.cmdr = 0 ∧
  (∀ (s : State) (rest : List HostStep), s.port = .reset :: rest →
    ∃ t, step s = .next t ∧ (∀ r i, readLimb t r i = 0) ∧ (∀ c, readCond t c = 0) ∧
      t.busy = false ∧ t.ill = false ∧ t.cmdr = 0 ∧ t.port = rest ∧
      winRead t 0x248 = 0 ∧ winRead t 0x250 = 0x0000000008080640 ∧
      (∀ i : Fin 6, winRead t (0x280 + 8 * i.val) = (elemLimbs primeQ)[i]) ∧
      winRead t 0x2B0 = qN0 ∧
      (∀ i : Fin 6, winRead t (0x2C0 + 8 * i.val) = (elemLimbs orderN)[i]) ∧
      winRead t 0x2F0 = nN0)

/-- R161: a reset taken while a command is in flight abandons it: two states that differ in anything but
the pending steps and what is the model's own (log entry 11) reset alike, so nothing of the command survives; the
destination is zero; and an access pending behind the reset is performed on the reset state. -/
def Obligations.ResetAbandonsCommand : Prop :=
  ∀ (s u : State) (off : Nat) (rest : List HostStep), s.busy = true → off % 8 = 0 → off < 0x248 →
    s.port = .reset :: .read 64 off :: rest → u.port = s.port → u.answers = s.answers →
    u.draws = s.draws →
    ∃ t, step s = .next t ∧ step u = .next t ∧ t.busy = false ∧ (∀ r i, readLimb t r i = 0) ∧
      step t = .next { t with port := rest, answers := 0 :: s.answers }

/-- Every reset register is in range for both moduli, so each of the three arithmetic commands is in
contract for all operands before any host write and leaves the value the rules give: 0 (10_state.md section 7). -/
def Obligations.ResetRegistersInContract : Prop :=
  ∀ rd ra rb : EReg,
    (∃ t, exec (.fadd rd ra rb) State.reset = .next t ∧ sourceVal t rd = 0) ∧
    (∃ t, exec (.fmul rd ra rb) State.reset = .next t ∧ sourceVal t rd = 0) ∧
    (∃ t, exec (.smul rd ra rb) State.reset = .next t ∧ sourceVal t rd = 0)

/-! ## Invariants and progress -/

/-- The machine's invariant is kept by every step: with a command in flight the latched word is a legal
command and `ILL` is 0. -/
def Obligations.SoundKeptByEveryStep : Prop :=
  ∀ s t : State, Sound s → step s = .next t → Sound t

/-- The invariant holds at reset. -/
def Obligations.SoundAtReset : Prop := Sound State.reset

/-- From every sound state with a command in flight, whatever well-formed steps the host has pending, a
state with `BUSY = 0` is reached within one step more than there are pending steps (T-11; 70_reset_and_hazards.md
section 3). That the core has its turn once nothing is pending is the model's scheduling (log entry 3). -/
def Obligations.CommandInFlightEnds : Prop :=
  ∀ s : State, Sound s → s.busy = true → (∀ h ∈ s.port, h.wellFormed = true) →
    ∃ n t, n ≤ s.port.length + 1 ∧ Host.Core.run core n s = .next t ∧ t.busy = false

/-- Only a command's completion, a host write of an element word or a reset changes an element register:
a step that changes one has a command in flight, or such a write or a reset at the head of the port
(10_state.md section 6, lifecycle). -/
def Obligations.WhoWritesElements : Prop :=
  ∀ (s t : State) (r : EReg), step s = .next t → readElem t r ≠ readElem s r →
    (s.busy = true ∧ ∃ i, decodeLatched s.cmdr = .ok i ∧ destOf i = r) ∨
    (∃ off v rest, s.busy = false ∧ s.port = .write 64 off v :: rest ∧
      0x40 * r.val ≤ off ∧ off < 0x40 * r.val + 48) ∨
    (∃ rest, s.port = .reset :: rest)

/-- Only a host write of a condition word or a reset changes a condition register: no command writes
one (10_state.md section 3). -/
def Obligations.WhoWritesConditions : Prop :=
  ∀ (s t : State) (c : KReg), step s = .next t → readCond t c ≠ readCond s c →
    (∃ v rest, s.busy = false ∧ s.port = .write 64 (0x200 + 8 * c.val) v :: rest) ∨
    (∃ rest, s.port = .reset :: rest)

/-- The block's five components alone decide what a step does to them: two states with the same block and
the same pending steps, whatever else they hold, take the same step to the same block and the same pending
steps, so long as a command performed by it is within its contract (10_state.md R20: the five components
and nothing else). What else a state holds is the model's own (log entries 4 and 11). -/
def Obligations.BlockDecidesItsOwnStep : Prop :=
  ∀ s u t : State, u.toBlock = s.toBlock → u.port = s.port → step s = .next t →
    (s.busy = true → ∀ i, decodeLatched s.cmdr = .ok i → inContract i s = true) →
    ∃ w, step u = .next w ∧ w.toBlock = t.toBlock ∧ w.port = t.port
end

