-- ==== Sys2Proof/Laws/State.lean ====
section
/-! SUPPORT. One lemma per field per update of the state, so that no later proof unfolds a record
update. -/

namespace Sys2Proof.Machine

/-! ### The block right after reset (R42). -/

@[simp] theorem blockReset_e : blockReset.e = Vector.replicate 8 (Vector.replicate 6 0) := rfl
@[simp] theorem blockReset_k : blockReset.k = Vector.replicate 8 0 := rfl
@[simp] theorem blockReset_busy : blockReset.busy = false := rfl
@[simp] theorem blockReset_cmdr : blockReset.cmdr = 0 := rfl
@[simp] theorem blockReset_ill : blockReset.ill = false := rfl

/-! ### Writing an element register touches `e` alone (R13). -/

@[simp] theorem writeElem_e (s : State) (r : EReg) (x : Elem) :
    (writeElem s r x).e = s.e.set r.val x r.isLt := rfl
@[simp] theorem writeElem_k (s : State) (r : EReg) (x : Elem) : (writeElem s r x).k = s.k := rfl
@[simp] theorem writeElem_busy (s : State) (r : EReg) (x : Elem) :
    (writeElem s r x).busy = s.busy := rfl
@[simp] theorem writeElem_cmdr (s : State) (r : EReg) (x : Elem) :
    (writeElem s r x).cmdr = s.cmdr := rfl
@[simp] theorem writeElem_ill (s : State) (r : EReg) (x : Elem) :
    (writeElem s r x).ill = s.ill := rfl
@[simp] theorem writeElem_port (s : State) (r : EReg) (x : Elem) :
    (writeElem s r x).port = s.port := rfl
@[simp] theorem writeElem_answers (s : State) (r : EReg) (x : Elem) :
    (writeElem s r x).answers = s.answers := rfl
@[simp] theorem writeElem_draws (s : State) (r : EReg) (x : Elem) :
    (writeElem s r x).draws = s.draws := rfl

/-! ### Writing one limb touches `e` alone (R59). -/

@[simp] theorem writeLimb_e (s : State) (r : EReg) (i : Fin 6) (v : Word) :
    (writeLimb s r i v).e = s.e.set r.val ((readElem s r).set i.val v i.isLt) r.isLt := rfl
@[simp] theorem writeLimb_k (s : State) (r : EReg) (i : Fin 6) (v : Word) :
    (writeLimb s r i v).k = s.k := rfl
@[simp] theorem writeLimb_busy (s : State) (r : EReg) (i : Fin 6) (v : Word) :
    (writeLimb s r i v).busy = s.busy := rfl
@[simp] theorem writeLimb_cmdr (s : State) (r : EReg) (i : Fin 6) (v : Word) :
    (writeLimb s r i v).cmdr = s.cmdr := rfl
@[simp] theorem writeLimb_ill (s : State) (r : EReg) (i : Fin 6) (v : Word) :
    (writeLimb s r i v).ill = s.ill := rfl
@[simp] theorem writeLimb_port (s : State) (r : EReg) (i : Fin 6) (v : Word) :
    (writeLimb s r i v).port = s.port := rfl
@[simp] theorem writeLimb_answers (s : State) (r : EReg) (i : Fin 6) (v : Word) :
    (writeLimb s r i v).answers = s.answers := rfl
@[simp] theorem writeLimb_draws (s : State) (r : EReg) (i : Fin 6) (v : Word) :
    (writeLimb s r i v).draws = s.draws := rfl

/-! ### Writing a number's limbs touches `e` alone (R13). -/

@[simp] theorem writeVal_e (s : State) (r : EReg) (v : Nat) :
    (writeVal s r v).e = s.e.set r.val (elemLimbs v) r.isLt := rfl
@[simp] theorem writeVal_k (s : State) (r : EReg) (v : Nat) : (writeVal s r v).k = s.k := rfl
@[simp] theorem writeVal_busy (s : State) (r : EReg) (v : Nat) :
    (writeVal s r v).busy = s.busy := rfl
@[simp] theorem writeVal_cmdr (s : State) (r : EReg) (v : Nat) :
    (writeVal s r v).cmdr = s.cmdr := rfl
@[simp] theorem writeVal_ill (s : State) (r : EReg) (v : Nat) : (writeVal s r v).ill = s.ill := rfl
@[simp] theorem writeVal_port (s : State) (r : EReg) (v : Nat) :
    (writeVal s r v).port = s.port := rfl
@[simp] theorem writeVal_answers (s : State) (r : EReg) (v : Nat) :
    (writeVal s r v).answers = s.answers := rfl
@[simp] theorem writeVal_draws (s : State) (r : EReg) (v : Nat) :
    (writeVal s r v).draws = s.draws := rfl

/-! ### Writing a condition register touches `k` alone (R59). -/

@[simp] theorem writeCond_e (s : State) (c : KReg) (v : Word) : (writeCond s c v).e = s.e := rfl
@[simp] theorem writeCond_k (s : State) (c : KReg) (v : Word) :
    (writeCond s c v).k = s.k.set c.val v c.isLt := rfl
@[simp] theorem writeCond_busy (s : State) (c : KReg) (v : Word) :
    (writeCond s c v).busy = s.busy := rfl
@[simp] theorem writeCond_cmdr (s : State) (c : KReg) (v : Word) :
    (writeCond s c v).cmdr = s.cmdr := rfl
@[simp] theorem writeCond_ill (s : State) (c : KReg) (v : Word) :
    (writeCond s c v).ill = s.ill := rfl
@[simp] theorem writeCond_port (s : State) (c : KReg) (v : Word) :
    (writeCond s c v).port = s.port := rfl
@[simp] theorem writeCond_answers (s : State) (c : KReg) (v : Word) :
    (writeCond s c v).answers = s.answers := rfl
@[simp] theorem writeCond_draws (s : State) (c : KReg) (v : Word) :
    (writeCond s c v).draws = s.draws := rfl

/-! ### A draw touches `e` and the draw counter (R101, R125). -/

@[simp] theorem drawElem_e (s : State) (r : EReg) :
    (drawElem s r).e = s.e.set r.val (freeElem s.draws) r.isLt := rfl
@[simp] theorem drawElem_k (s : State) (r : EReg) : (drawElem s r).k = s.k := rfl
@[simp] theorem drawElem_busy (s : State) (r : EReg) : (drawElem s r).busy = s.busy := rfl
@[simp] theorem drawElem_cmdr (s : State) (r : EReg) : (drawElem s r).cmdr = s.cmdr := rfl
@[simp] theorem drawElem_ill (s : State) (r : EReg) : (drawElem s r).ill = s.ill := rfl
@[simp] theorem drawElem_port (s : State) (r : EReg) : (drawElem s r).port = s.port := rfl
@[simp] theorem drawElem_answers (s : State) (r : EReg) : (drawElem s r).answers = s.answers := rfl
@[simp] theorem drawElem_draws (s : State) (r : EReg) : (drawElem s r).draws = s.draws + 6 := rfl

/-! ### `Illegal` touches `ill` alone (R141). -/

@[simp] theorem raiseIllegal_e (s : State) : (raiseIllegal s).e = s.e := rfl
@[simp] theorem raiseIllegal_k (s : State) : (raiseIllegal s).k = s.k := rfl
@[simp] theorem raiseIllegal_busy (s : State) : (raiseIllegal s).busy = s.busy := rfl
@[simp] theorem raiseIllegal_cmdr (s : State) : (raiseIllegal s).cmdr = s.cmdr := rfl
@[simp] theorem raiseIllegal_ill (s : State) : (raiseIllegal s).ill = true := rfl
@[simp] theorem raiseIllegal_port (s : State) : (raiseIllegal s).port = s.port := rfl
@[simp] theorem raiseIllegal_answers (s : State) : (raiseIllegal s).answers = s.answers := rfl
@[simp] theorem raiseIllegal_draws (s : State) : (raiseIllegal s).draws = s.draws := rfl

/-! ### A reset touches the five components of the block and nothing of the model's own (R160). -/

@[simp] theorem resetBlock_toBlock (s : State) : (resetBlock s).toBlock = blockReset := rfl
@[simp] theorem resetBlock_e (s : State) :
    (resetBlock s).e = Vector.replicate 8 (Vector.replicate 6 0) := rfl
@[simp] theorem resetBlock_k (s : State) : (resetBlock s).k = Vector.replicate 8 0 := rfl
@[simp] theorem resetBlock_busy (s : State) : (resetBlock s).busy = false := rfl
@[simp] theorem resetBlock_cmdr (s : State) : (resetBlock s).cmdr = 0 := rfl
@[simp] theorem resetBlock_ill (s : State) : (resetBlock s).ill = false := rfl
@[simp] theorem resetBlock_port (s : State) : (resetBlock s).port = s.port := rfl
@[simp] theorem resetBlock_answers (s : State) : (resetBlock s).answers = s.answers := rfl
@[simp] theorem resetBlock_draws (s : State) : (resetBlock s).draws = s.draws := rfl

/-! ### Latching touches `cmdr` and `busy` (R88). -/

@[simp] theorem latchCommand_e (s : State) (c : BitVec 16) : (latchCommand s c).e = s.e := rfl
@[simp] theorem latchCommand_k (s : State) (c : BitVec 16) : (latchCommand s c).k = s.k := rfl
@[simp] theorem latchCommand_busy (s : State) (c : BitVec 16) :
    (latchCommand s c).busy = true := rfl
@[simp] theorem latchCommand_cmdr (s : State) (c : BitVec 16) : (latchCommand s c).cmdr = c := rfl
@[simp] theorem latchCommand_ill (s : State) (c : BitVec 16) : (latchCommand s c).ill = s.ill := rfl
@[simp] theorem latchCommand_port (s : State) (c : BitVec 16) :
    (latchCommand s c).port = s.port := rfl
@[simp] theorem latchCommand_answers (s : State) (c : BitVec 16) :
    (latchCommand s c).answers = s.answers := rfl
@[simp] theorem latchCommand_draws (s : State) (c : BitVec 16) :
    (latchCommand s c).draws = s.draws := rfl

/-! ### The end of `Complete` touches `busy` alone (R89). -/

@[simp] theorem clearBusy_e (s : State) : (clearBusy s).e = s.e := rfl
@[simp] theorem clearBusy_k (s : State) : (clearBusy s).k = s.k := rfl
@[simp] theorem clearBusy_busy (s : State) : (clearBusy s).busy = false := rfl
@[simp] theorem clearBusy_cmdr (s : State) : (clearBusy s).cmdr = s.cmdr := rfl
@[simp] theorem clearBusy_ill (s : State) : (clearBusy s).ill = s.ill := rfl
@[simp] theorem clearBusy_port (s : State) : (clearBusy s).port = s.port := rfl
@[simp] theorem clearBusy_answers (s : State) : (clearBusy s).answers = s.answers := rfl
@[simp] theorem clearBusy_draws (s : State) : (clearBusy s).draws = s.draws := rfl

/-! ### An answered read touches `answers` alone (R57). -/

@[simp] theorem hostRead_toBlock (s : State) (off : Nat) :
    (hostRead s off).toBlock = s.toBlock := rfl
@[simp] theorem hostRead_e (s : State) (off : Nat) : (hostRead s off).e = s.e := rfl
@[simp] theorem hostRead_k (s : State) (off : Nat) : (hostRead s off).k = s.k := rfl
@[simp] theorem hostRead_busy (s : State) (off : Nat) : (hostRead s off).busy = s.busy := rfl
@[simp] theorem hostRead_cmdr (s : State) (off : Nat) : (hostRead s off).cmdr = s.cmdr := rfl
@[simp] theorem hostRead_ill (s : State) (off : Nat) : (hostRead s off).ill = s.ill := rfl
@[simp] theorem hostRead_port (s : State) (off : Nat) : (hostRead s off).port = s.port := rfl
@[simp] theorem hostRead_answers (s : State) (off : Nat) :
    (hostRead s off).answers = winRead s off :: s.answers := rfl
@[simp] theorem hostRead_draws (s : State) (off : Nat) : (hostRead s off).draws = s.draws := rfl

/-! ### Taking a host step up touches `port` alone. -/

@[simp] theorem withPort_toBlock (s : State) (rest : List HostStep) :
    (withPort s rest).toBlock = s.toBlock := rfl
@[simp] theorem withPort_e (s : State) (rest : List HostStep) : (withPort s rest).e = s.e := rfl
@[simp] theorem withPort_k (s : State) (rest : List HostStep) : (withPort s rest).k = s.k := rfl
@[simp] theorem withPort_busy (s : State) (rest : List HostStep) :
    (withPort s rest).busy = s.busy := rfl
@[simp] theorem withPort_cmdr (s : State) (rest : List HostStep) :
    (withPort s rest).cmdr = s.cmdr := rfl
@[simp] theorem withPort_ill (s : State) (rest : List HostStep) :
    (withPort s rest).ill = s.ill := rfl
@[simp] theorem withPort_port (s : State) (rest : List HostStep) :
    (withPort s rest).port = rest := rfl
@[simp] theorem withPort_answers (s : State) (rest : List HostStep) :
    (withPort s rest).answers = s.answers := rfl
@[simp] theorem withPort_draws (s : State) (rest : List HostStep) :
    (withPort s rest).draws = s.draws := rfl

end Sys2Proof.Machine
end

