-- ==== Sys2Proof/Laws/Elem.lean ====
section
/-! SUPPORT. The element value and its limbs are inverse to each other, and the reads and writes of the
register files (00_scope.md R13, 20_memory.md R59). -/

namespace Sys2Proof.Machine

/-- Two elements with equal limbs at the six places are equal. -/
theorem elem_ext {x y : Elem} (h0 : x[0] = y[0]) (h1 : x[1] = y[1]) (h2 : x[2] = y[2])
    (h3 : x[3] = y[3]) (h4 : x[4] = y[4]) (h5 : x[5] = y[5]) : x = y := by
  apply Vector.ext
  intro i hi
  match i, hi with
  | 0, _ => exact h0
  | 1, _ => exact h1
  | 2, _ => exact h2
  | 3, _ => exact h3
  | 4, _ => exact h4
  | 5, _ => exact h5

/-- An element's value has 384 bits (R13). -/
theorem elemVal_lt (x : Elem) : elemVal x < 2 ^ 384 := by
  have h0 := x[0].isLt
  have h1 := x[1].isLt
  have h2 := x[2].isLt
  have h3 := x[3].isLt
  have h4 := x[4].isLt
  have h5 := x[5].isLt
  simp only [elemVal]
  omega

/-- `val(limbs(v)) = v` for a 384-bit `v` (R13). -/
theorem elemVal_elemLimbs {v : Nat} (h : v < 2 ^ 384) : elemVal (elemLimbs v) = v := by
  simp only [elemVal, elemLimbs, Vector.getElem_mk, List.getElem_toArray, List.getElem_cons_zero,
    List.getElem_cons_succ, BitVec.toNat_ofNat]
  omega

/-- `limbs(val(x)) = x` (R13). -/
theorem elemLimbs_elemVal (x : Elem) : elemLimbs (elemVal x) = x := by
  have h0 := x[0].isLt
  have h1 := x[1].isLt
  have h2 := x[2].isLt
  have h3 := x[3].isLt
  have h4 := x[4].isLt
  have h5 := x[5].isLt
  apply elem_ext <;>
    (simp only [elemLimbs, Vector.getElem_mk, List.getElem_toArray, List.getElem_cons_zero,
      List.getElem_cons_succ]
     apply BitVec.eq_of_toNat_eq
     simp only [elemVal, BitVec.toNat_ofNat]
     omega)

/-- Two elements of one value are one element: the limbs are the digits of the value (R13). -/
theorem elemVal_injective {x y : Elem} (h : elemVal x = elemVal y) : x = y := by
  rw [← elemLimbs_elemVal x, h, elemLimbs_elemVal]

/-- A written register reads as written. -/
@[simp] theorem readElem_writeElem_same (s : State) (r : EReg) (x : Elem) :
    readElem (writeElem s r x) r = x := by
  simp [readElem]

/-- A write leaves every other register as it was. -/
@[simp] theorem readElem_writeElem_other (s : State) {r r' : EReg} (x : Elem) (h : r' ≠ r) :
    readElem (writeElem s r x) r' = readElem s r' := by
  have : r.val ≠ r'.val := fun e => h (Fin.ext e.symm)
  simp [readElem, this]

/-- A drawn register holds the drawn limbs (R101). -/
@[simp] theorem readElem_drawElem_same (s : State) (r : EReg) :
    readElem (drawElem s r) r = freeElem s.draws := by
  simp [readElem]

/-- A draw leaves every other register as it was (R101). -/
@[simp] theorem readElem_drawElem_other (s : State) {r r' : EReg} (h : r' ≠ r) :
    readElem (drawElem s r) r' = readElem s r' := by
  have : r.val ≠ r'.val := fun e => h (Fin.ext e.symm)
  simp [readElem, this]

/-- A number written and read back is that number, for 384 bits (R13). -/
theorem sourceVal_writeVal_same (s : State) (r : EReg) {v : Nat} (h : v < 2 ^ 384) :
    sourceVal (writeVal s r v) r = v := by
  simp [sourceVal, writeVal, elemVal_elemLimbs h]

/-- A number written leaves every other register as it was (R13). -/
@[simp] theorem readElem_writeVal_other (s : State) {r r' : EReg} (v : Nat) (h : r' ≠ r) :
    readElem (writeVal s r v) r' = readElem s r' := by
  simp [writeVal, h]

/-- A written limb reads as written (R59). -/
@[simp] theorem readLimb_writeLimb_same (s : State) (r : EReg) (i : Fin 6) (v : Word) :
    readLimb (writeLimb s r i v) r i = v := by
  simp [readLimb, writeLimb]

/-- A limb write leaves every other limb of every register as it was (R59). -/
theorem readLimb_writeLimb_other (s : State) {r r' : EReg} {i i' : Fin 6} (v : Word)
    (h : (r', i') ≠ (r, i)) : readLimb (writeLimb s r i v) r' i' = readLimb s r' i' := by
  by_cases hr : r' = r
  · subst hr
    have : i.val ≠ i'.val := fun e => h (by rw [Fin.ext e])
    simp [readLimb, writeLimb, this]
  · simp [readLimb, writeLimb, hr]

/-- A written condition register reads as written (R59). -/
@[simp] theorem readCond_writeCond_same (s : State) (c : KReg) (v : Word) :
    readCond (writeCond s c v) c = v := by
  simp [readCond]

/-- A condition write leaves every other condition register as it was (R59). -/
@[simp] theorem readCond_writeCond_other (s : State) {c c' : KReg} (v : Word) (h : c' ≠ c) :
    readCond (writeCond s c v) c' = readCond s c' := by
  have : c.val ≠ c'.val := fun e => h (Fin.ext e.symm)
  simp [readCond, this]

/-- Each drawn limb is the next free value in turn (R101, R125). -/
theorem freeElem_limb (n : Nat) (i : Fin 6) : (freeElem n)[i] = Config.freeLimb (n + i.val) := by
  fin_cases i <;> rfl

end Sys2Proof.Machine
end

