-- ==== Sys2Proof/Laws/Arith.lean ====
section
/-! SUPPORT. Bounds of what the arithmetic units write, the facts about the moduli the proofs use, and
the register-direct operands (41_field_add.md, 42_mont_mul.md). -/

namespace Sys2Proof.Machine

set_option exponentiation.threshold 400 in
/-- `Q` and `N` have 384 bits and `N < Q` (R27, R28). -/
theorem moduli_lt : orderN < primeQ ∧ primeQ < 2 ^ 384 ∧ 2 ^ 383 < orderN := by decide

set_option exponentiation.threshold 400 in
/-- `Rinv_Q` inverts the radix modulo `Q` (R120). -/
theorem rinvQ_spec : 2 ^ 384 * rinvQ % primeQ = 1 := by decide

set_option exponentiation.threshold 400 in
/-- `Rinv_N` inverts the radix modulo `N` (R120). -/
theorem rinvN_spec : 2 ^ 384 * rinvN % orderN = 1 := by decide

/-- An element operand's value has 384 bits. -/
theorem sourceVal_lt (s : State) (r : EReg) : sourceVal s r < 2 ^ 384 := elemVal_lt _

/-- The carry of two 384-bit patterns is set exactly when their sum leaves 384 bits (R110). -/
theorem carryOut_iff {a b : Nat} (ha : a < 2 ^ 384) (hb : b < 2 ^ 384) :
    carryOut a b = true ↔ 2 ^ 384 ≤ a + b := by
  simp only [carryOut, beq_iff_eq]
  omega

/-- The carry of two 384-bit patterns is clear exactly when their sum stays in 384 bits (R110). -/
theorem carryOut_false_iff {a b : Nat} (ha : a < 2 ^ 384) (hb : b < 2 ^ 384) :
    carryOut a b = false ↔ a + b < 2 ^ 384 := by
  rw [← Bool.not_eq_true, carryOut_iff ha hb, Nat.not_le]

/-- The comparison (R110, R116). -/
theorem isBelow_iff (t m : Nat) : isBelow t m = true ↔ t < m := by
  simp [isBelow]

set_option exponentiation.threshold 400 in
/-- Whatever the patterns, `FADD`'s result has 384 bits (R110). -/
theorem fieldSum_lt (a b : Nat) : fieldSum a b < 2 ^ 384 := by
  unfold fieldSum
  split
  · exact Nat.mod_lt _ (by decide)
  · exact Nat.mod_lt _ (by decide)

/-- A Montgomery product is below its modulus (R120). -/
theorem montMul_lt {m : Nat} (hm : 0 < m) (a b rinv : Nat) : montMul a b m rinv < m :=
  Nat.mod_lt _ hm

/-- A Montgomery product depends on its sources modulo the modulus alone (R120). -/
theorem montMul_mod (a b m rinv : Nat) : montMul (a % m) (b % m) m rinv = montMul a b m rinv := by
  simp [montMul, Nat.mul_mod]

/-- The classes of condition word (R101). -/
theorem condClass_cases (c : Word) :
    (condClass c = .isTrue ∧ c = true64) ∨ (condClass c = .isFalse ∧ c = false64) ∨
      (condClass c = .neither ∧ c ≠ true64 ∧ c ≠ false64) := by
  unfold condClass
  split
  · next h => exact .inl ⟨rfl, h⟩
  · next h =>
    split
    · next h' => exact .inr (.inl ⟨rfl, h'⟩)
    · next h' => exact .inr (.inr ⟨rfl, h, h'⟩)

/-- The two arms of a multiplier (R122, R123, R125). -/
theorem montCommand_cases (m rinv : Nat) (rd ra rb : EReg) (s : State) :
    (sourceVal s ra < m ∧ sourceVal s rb < m ∧ montCommand m rinv rd ra rb s =
      writeVal s rd (montMul (sourceVal s ra) (sourceVal s rb) m rinv)) ∨
    ((m ≤ sourceVal s ra ∨ m ≤ sourceVal s rb) ∧ montCommand m rinv rd ra rb s = drawElem s rd) := by
  unfold montCommand
  split
  · next h => exact .inl ⟨h.1, h.2, rfl⟩
  · next h => exact .inr ⟨by omega, rfl⟩

end Sys2Proof.Machine
end

