-- ==== Sys2Proof/Laws/Exec.lean ====
section
/-! SUPPORT. What a command's `exec` can do, said once: it writes its destination register, or draws
free values into it, or (a false condition) does nothing (30_encoding.md R89). -/

namespace Sys2Proof.Machine

open Sys2Proof.Safety

/-- Everything a next state of `exec` can be. -/
theorem exec_cases {i : Instr} {s t : State} (h : exec i s = .next t) :
    t = s ∨ (∃ x, t = writeElem s (destOf i) x) ∨ t = drawElem s (destOf i) := by
  cases i with
  | ccopy rd ra kc =>
    simp only [exec, execCcopy] at h
    split at h <;> cases h
    · exact .inr (.inl ⟨_, rfl⟩)
    · exact .inl rfl
    · exact .inr (.inr rfl)
  | fadd rd ra rb => cases h; exact .inr (.inl ⟨_, rfl⟩)
  | fmul rd ra rb =>
    cases h
    rcases montCommand_cases primeQ rinvQ rd ra rb s with ⟨-, -, e⟩ | ⟨-, e⟩
    · exact .inr (.inl ⟨_, e⟩)
    · exact .inr (.inr e)
  | smul rd ra rb =>
    cases h
    rcases montCommand_cases orderN rinvN rd ra rb s with ⟨-, -, e⟩ | ⟨-, e⟩
    · exact .inr (.inl ⟨_, e⟩)
    · exact .inr (.inr e)

/-- `exec` never faults and never refuses (R140). -/
theorem exec_ne_stop (i : Instr) (s : State) :
    (∀ f, exec i s ≠ .fault f) ∧ (∀ r, exec i s ≠ .refused r) := by
  cases i <;> simp only [exec, execCcopy, execFadd, execFmul, execSmul] <;>
    (try split) <;> exact ⟨by simp, by simp⟩

/-- `finish` clears `BUSY` of a next state and passes a stop on (R89). -/
@[simp] theorem finish_next (t : State) : finish (.next t) = .next (clearBusy t) := rfl

/-- A next state of `finish` is a next state of the command with `BUSY` cleared (R89). -/
theorem finish_eq_next {o : Host.Outcome State Fault Refusal} {t : State} (h : finish o = .next t) :
    ∃ u, o = .next u ∧ t = clearBusy u := by
  cases o with
  | next u => exact ⟨u, rfl, by simpa [finish] using h.symm⟩
  | fault f => simp [finish] at h
  | refused r => simp [finish] at h

end Sys2Proof.Machine
end

