-- ==== Sys2Proof/Laws/Port.lean ====
section
/-! SUPPORT. What the port and the core's turn can do: one spec lemma per shared operation, and the
inversion of a step (20_memory.md R53 to R60, 30_encoding.md R88, R89). -/

namespace Sys2Proof.Machine

open Sys2Proof.Safety

/-- `Issue` discards, raises `Illegal`, or latches (R88). -/
theorem issue_cases (s : State) (v : Word) :
    (s.ill = true ∧ issue s v = s) ∨
    (s.ill = false ∧ (∃ why, decode v = .error why) ∧ issue s v = raiseIllegal s) ∨
    (s.ill = false ∧ (∃ i, decode v = .ok i) ∧ issue s v = latchCommand s (v.setWidth 16)) := by
  unfold issue
  split
  · next h => exact .inl ⟨h, rfl⟩
  · next h =>
    split
    · next why hd => exact .inr (.inl ⟨by simpa using h, ⟨why, hd⟩, rfl⟩)
    · next i hd => exact .inr (.inr ⟨by simpa using h, ⟨i, hd⟩, rfl⟩)

/-- The port refuses nothing exactly when the access is legal (R52, R53). -/
theorem accessRefusal_none_iff (width off : Nat) :
    accessRefusal width off = none ↔ width = 64 ∧ off % 8 = 0 ∧ off < 0x300 := by
  unfold accessRefusal
  split_ifs <;> simp_all

/-- The port's test of an access and the well-formedness of the host step are one (R52, R53). -/
theorem accessRefusal_none_iff_legal (width off : Nat) :
    accessRefusal width off = none ↔ legalAccess width off = true := by
  rw [accessRefusal_none_iff]
  unfold legalAccess Config.wordBits Config.winBytes
  simp [and_assoc]

/-- The interlock holds an access exactly while `BUSY = 1` and the offset is below `0x248` (R58). -/
theorem held_iff (s : State) (off : Nat) : held s off = true ↔ s.busy = true ∧ off < 0x248 := by
  simp [held]

/-- What a window write can do (R59). -/
theorem winWrite_cases (s : State) (off : Nat) (v : Word) :
    (∃ r i, windowWord off = .limb r i ∧ winWrite s off v = writeLimb s r i v) ∨
    (∃ c, windowWord off = .cond c ∧ winWrite s off v = writeCond s c v) ∨
    (windowWord off = .cmd ∧ winWrite s off v = issue s v) ∨ winWrite s off v = s := by
  unfold winWrite
  split <;> simp_all

/-- The word at each offset of an element limb (R51). -/
@[simp] theorem windowWord_limb (r : EReg) (i : Fin 6) :
    windowWord (0x40 * r.val + 8 * i.val) = .limb r i := by
  revert r i
  decide

/-- The word at each offset of a condition register (R51). -/
@[simp] theorem windowWord_cond (c : KReg) : windowWord (0x200 + 8 * c.val) = .cond c := by
  revert c
  decide

/-- Where each word of the window lies: the whole map of R51, read from the word back to the offset. -/
theorem windowWord_spec (off : Nat) :
    match windowWord off with
    | .limb r i => off < 0x200 ∧ off / 0x40 = r.val ∧ off % 0x40 / 8 = i.val
    | .cond c => 0x200 ≤ off ∧ off < 0x240 ∧ (off - 0x200) / 8 = c.val
    | .cmd => off / 8 * 8 = 0x240
    | .status => off / 8 * 8 = 0x248
    | .cfg => off / 8 * 8 = 0x250
    | .q i => 0x280 ≤ off ∧ off < 0x2B0 ∧ (off - 0x280) / 8 = i.val
    | .qn0 => off / 8 * 8 = 0x2B0
    | .n i => 0x2C0 ≤ off ∧ off < 0x2F0 ∧ (off - 0x2C0) / 8 = i.val
    | .nn0 => off / 8 * 8 = 0x2F0
    | .reserved => (off < 0x200 ∧ 0x30 ≤ off % 0x40) ∨ (0x258 ≤ off ∧ off < 0x280) ∨
        (0x2B8 ≤ off ∧ off < 0x2C0) ∨ 0x2F8 ≤ off := by
  generalize h : windowWord off = w
  unfold windowWord at h
  repeat' split at h
  all_goals
    subst h
    dsimp only
    omega

/-- Which offsets are limbs (R51). -/
theorem windowWord_eq_limb {off : Nat} {r : EReg} {i : Fin 6} (h : windowWord off = .limb r i) :
    off < 0x200 ∧ off / 0x40 = r.val ∧ off % 0x40 / 8 = i.val := by
  have := windowWord_spec off
  rwa [h] at this

/-- Which offsets are condition registers (R51). -/
theorem windowWord_eq_cond {off : Nat} {c : KReg} (h : windowWord off = .cond c) :
    0x200 ≤ off ∧ off < 0x240 ∧ (off - 0x200) / 8 = c.val := by
  have := windowWord_spec off
  rwa [h] at this

/-- Which offset issues commands (R51). -/
theorem windowWord_eq_cmd {off : Nat} (h : windowWord off = .cmd) : off / 8 * 8 = 0x240 := by
  have := windowWord_spec off
  rwa [h] at this

/-- A next state of the core's turn: a completed command, or nothing with `BUSY = 0` (R89, R153). -/
theorem coreTurn_cases {s t : State} (h : coreTurn s = .next t) :
    (s.busy = true ∧ ∃ i u, decodeLatched s.cmdr = .ok i ∧ exec i s = .next u ∧ t = clearBusy u) ∨
    (s.busy = false ∧ t = s) := by
  unfold coreTurn complete at h
  split at h
  · next hb =>
    split at h
    · next i hd =>
      obtain ⟨u, hu, rfl⟩ := finish_eq_next h
      exact .inl ⟨hb, i, u, hd, hu, rfl⟩
    · cases h
  · next hb => cases h; exact .inr ⟨by simpa using hb, rfl⟩

/-- Everything a step that answers a next state can have been: the core's turn (with nothing pending, a
wait, or a held access at the head), a reset, a read answered, or a write performed (R10, R58, R60). -/
theorem step_cases {s t : State} (h : step s = .next t) :
    ((s.port = [] ∨ ∃ a rest, s.port = a :: rest ∧ a ≠ .wait ∧ s.busy = true) ∧ coreTurn s = .next t) ∨
    (∃ rest, s.port = .wait :: rest ∧ coreTurn (withPort s rest) = .next t) ∨
    (∃ rest, s.port = .reset :: rest ∧ t = resetBlock (withPort s rest)) ∨
    (∃ off rest, s.port = .read 64 off :: rest ∧ off % 8 = 0 ∧ off < 0x300 ∧
      held s off = false ∧ t = hostRead (withPort s rest) off) ∨
    (∃ off v rest, s.port = .write 64 off v :: rest ∧ off % 8 = 0 ∧ off < 0x300 ∧
      held s off = false ∧ t = hostWrite (withPort s rest) off v) := by
  unfold step turn at h
  split at h
  · next hp => exact .inl ⟨.inl hp, h⟩
  · next rest hp => exact .inr (.inl ⟨rest, hp, h⟩)
  · next rest hp => cases h; exact .inr (.inr (.inl ⟨rest, hp, rfl⟩))
  · next width off rest hp =>
    split at h
    · cases h
    · next hr =>
      obtain ⟨rfl, ha, ho⟩ := (accessRefusal_none_iff _ _).1 hr
      split at h
      · next hh => exact .inl ⟨.inr ⟨_, rest, hp, by simp, ((held_iff _ _).1 hh).1⟩, h⟩
      · next hh =>
        cases h
        exact .inr (.inr (.inr (.inl ⟨off, rest, hp, ha, ho, by simpa using hh, rfl⟩)))
  · next width off v rest hp =>
    split at h
    · cases h
    · next hr =>
      obtain ⟨rfl, ha, ho⟩ := (accessRefusal_none_iff _ _).1 hr
      split at h
      · next hh => exact .inl ⟨.inr ⟨_, rest, hp, by simp, ((held_iff _ _).1 hh).1⟩, h⟩
      · next hh =>
        cases h
        exact .inr (.inr (.inr (.inr ⟨off, v, rest, hp, ha, ho, by simpa using hh, rfl⟩)))

/-- A legal read that the interlock does not hold is answered and changes no state of the block (R57, R58). -/
theorem step_read {s : State} {off : Nat} {rest : List HostStep} (hp : s.port = .read 64 off :: rest)
    (ha : off % 8 = 0) (ho : off < 0x300) (hh : held s off = false) :
    step s = .next (hostRead (withPort s rest) off) := by
  simp [step, turn, hp, (accessRefusal_none_iff 64 off).2 ⟨rfl, ha, ho⟩, hh]

/-- A legal write that the interlock does not hold is performed (R58, R59). -/
theorem step_write {s : State} {off : Nat} {v : Word} {rest : List HostStep}
    (hp : s.port = .write 64 off v :: rest) (ha : off % 8 = 0) (ho : off < 0x300)
    (hh : held s off = false) : step s = .next (hostWrite (withPort s rest) off v) := by
  simp [step, turn, hp, (accessRefusal_none_iff 64 off).2 ⟨rfl, ha, ho⟩, hh]

/-- With `BUSY = 0` nothing is held (R58). -/
theorem held_of_idle {s : State} (h : s.busy = false) (off : Nat) : held s off = false := by
  simp [held, h]

/-- No steps leave the state. -/
@[simp] theorem run_zero (s : State) : Host.Core.run core 0 s = .next s := rfl

/-- One step, then the others. -/
theorem run_next {s t : State} (h : step s = .next t) (n : Nat) :
    Host.Core.run core (n + 1) s = Host.Core.run core n t := by
  have : core.step s = .next t := h
  simp only [Host.Core.run, this]

/-- A run of one step more answers a next state only if its first step does. -/
theorem run_succ_next {n : Nat} {s t : State} (h : Host.Core.run core (n + 1) s = .next t) :
    ∃ u, step s = .next u ∧ Host.Core.run core n u = .next t := by
  simp only [Host.Core.run] at h
  split at h
  · next u hu => exact ⟨u, hu, h⟩
  · cases h
  · cases h

end Sys2Proof.Machine
end

