-- ==== Sys2Proof/Laws/PerInstr.lean ====
section
/-! SUPPORT. A statement about every command as syntax: its register numbers are in range and its
encoding is a legal datum that carries its opcode (30_encoding.md R81 to R83). -/

namespace Sys2Proof.Laws.EncodesLegally

/-- The command is well-formed, and its word meets the opcode map's mask test and carries its opcode. -/
def Statement (i : Instr) : Prop :=
  i.wellFormed = true ∧ legalDatum (encode i) = true ∧ (fieldOp (encode i)).toNat = opcodeOf i

/-- Under the opcode map's mask only the opcode field is left of an encoded command (R83). -/
theorem encodeFields_and_mask (op : BitVec 4) (rd ra rb : Fin 8) :
    encodeFields op rd ra rb &&& cmdMask = op.setWidth 64 <<< 12 := by
  have hop : ∀ o : BitVec 4, (o.setWidth 64 <<< 12) &&& cmdMask = o.setWidth 64 <<< 12 := by decide
  have hrd : ∀ r : Fin 8, (BitVec.ofNat 64 r.val <<< 9) &&& cmdMask = 0#64 := by decide
  have hra : ∀ r : Fin 8, (BitVec.ofNat 64 r.val <<< 6) &&& cmdMask = 0#64 := by decide
  have hrb : ∀ r : Fin 8, (BitVec.ofNat 64 r.val <<< 3) &&& cmdMask = 0#64 := by decide
  simp only [encodeFields, BitVec.and_or_distrib_right, hop, hrd, hra, hrb, BitVec.or_zero]

/-- An encoded command carries its opcode in bits 15:12 (R81). -/
theorem fieldOp_encodeFields (op : BitVec 4) (rd ra rb : Fin 8) :
    fieldOp (encodeFields op rd ra rb) = op := by
  have hop : ∀ o : BitVec 4, (o.setWidth 64 <<< 12).extractLsb' 12 4 = o := by decide
  have hrd : ∀ r : Fin 8, (BitVec.ofNat 64 r.val <<< 9).extractLsb' 12 4 = 0#4 := by decide
  have hra : ∀ r : Fin 8, (BitVec.ofNat 64 r.val <<< 6).extractLsb' 12 4 = 0#4 := by decide
  have hrb : ∀ r : Fin 8, (BitVec.ofNat 64 r.val <<< 3).extractLsb' 12 4 = 0#4 := by decide
  simp only [fieldOp, encodeFields, BitVec.extractLsb'_or, hop, hrd, hra, hrb, BitVec.or_zero]

/-- `CCOPY` (R100). -/
theorem ccopy (rd ra : EReg) (kc : KReg) : Statement (.ccopy rd ra kc) := by
  refine ⟨by simp [Instr.wellFormed, Config.nreg, Config.ncond], ?_, ?_⟩
  · simp only [legalDatum, encode, encodeFields_and_mask]
    decide
  · simp only [encode, fieldOp_encodeFields, opcodeOf]
    decide

/-- `FADD` (R110). -/
theorem fadd (rd ra rb : EReg) : Statement (.fadd rd ra rb) := by
  refine ⟨by simp [Instr.wellFormed, Config.nreg], ?_, ?_⟩
  · simp only [legalDatum, encode, encodeFields_and_mask]
    decide
  · simp only [encode, fieldOp_encodeFields, opcodeOf]
    decide

/-- `FMUL` (R122). -/
theorem fmul (rd ra rb : EReg) : Statement (.fmul rd ra rb) := by
  refine ⟨by simp [Instr.wellFormed, Config.nreg], ?_, ?_⟩
  · simp only [legalDatum, encode, encodeFields_and_mask]
    decide
  · simp only [encode, fieldOp_encodeFields, opcodeOf]
    decide

/-- `SMUL` (R123). -/
theorem smul (rd ra rb : EReg) : Statement (.smul rd ra rb) := by
  refine ⟨by simp [Instr.wellFormed, Config.nreg], ?_, ?_⟩
  · simp only [legalDatum, encode, encodeFields_and_mask]
    decide
  · simp only [encode, fieldOp_encodeFields, opcodeOf]
    decide

end Sys2Proof.Laws.EncodesLegally
end

