-- ==== Sys2Proof/Tests/Slice0.lean ====
section
/-! SUPPORT. The model's own tests: well-formedness smoke tests, decode tests on words written out bit by
bit from the encoding (30_encoding.md R81), a few single-step tests whose expected results are the
vectors of 95_test_vectors.md, and for every statement with hypotheses a witness that meets them. -/

set_option exponentiation.threshold 400

namespace Sys2Proof.Tests

open Sys2Proof.Machine Sys2Proof.Safety

/-- The reset state with some element and condition registers loaded. -/
def loaded (es : List (EReg × Nat)) (ks : List (KReg × Word)) : State :=
  ks.foldl (fun s p => writeCond s p.1 p.2) (es.foldl (fun s p => writeVal s p.1 p.2) State.reset)

/-- The next state of an outcome, if it is one. -/
def after : Host.Outcome State Fault Refusal → Option State
  | .next t => some t
  | .fault _ => none
  | .refused _ => none

/-- Whether an outcome is a refusal. -/
def refusal : Host.Outcome State Fault Refusal → Option Refusal
  | .next _ => none
  | .fault _ => none
  | .refused r => some r

/-- `ka` and `kb`, the sample scalars of 95_test_vectors.md section 2. -/
def ka : Nat :=
  0x0123456789abcdef0fedcba987654321001122334455667788_99aabbccddeeff0f1e2d3c4b5a69788796a5b4c3d2e1f0

/-- See `ka`. -/
def kb : Nat :=
  0xfedcba9876543210f0e1d2c3b4a5968778695a4b3c2d1e0fff_eeddccbbaa99887766554433221100deadbeefcafef00d

/-! ### Well-formedness smoke tests: one ill-formed term for each check -/

theorem test_datum_high_bits_refused : legalDatum 0x12408 = false := by decide
theorem test_datum_opcode_refused : legalDatum 0x5000 = false := by decide
theorem test_datum_zero_opcode_refused : legalDatum 0x0408 = false := by decide
theorem test_datum_z_field_refused : legalDatum 0x2409 = false := by decide
theorem test_datum_legal : legalDatum 0x2408 = true := by decide
theorem test_access_width_refused : (HostStep.read 32 0x000).wellFormed = false := by decide
theorem test_access_misaligned_refused : (HostStep.read 64 0x004).wellFormed = false := by decide
theorem test_access_outside_refused : (HostStep.write 64 0x300 0).wellFormed = false := by decide
theorem test_access_legal : (HostStep.read 64 0x2F8).wellFormed = true := by decide
theorem test_instr_well_formed : (Instr.ccopy 7 7 7).wellFormed = true := by decide

/-! ### Decode, each word written as `op rd ra rb z` (R81, R92, E-1 to E-22) -/

theorem test_decode_ccopy : decode 0b0001_000_001_000_000 = .ok (.ccopy 0 1 0) := by decide
theorem test_decode_ccopy_fields : decode 0b0001_100_011_110_000 = .ok (.ccopy 4 3 6) := by decide
theorem test_decode_fadd : decode 0b0010_010_000_001_000 = .ok (.fadd 2 0 1) := by decide
theorem test_decode_fmul : decode 0b0011_101_100_110_000 = .ok (.fmul 5 4 6) := by decide
theorem test_decode_smul : decode 0b0100_011_001_111_000 = .ok (.smul 3 1 7) := by decide
theorem test_decode_zero : decode 0 = .error .opcode := by decide
theorem test_decode_op15 : decode 0xf000 = .error .opcode := by decide
theorem test_decode_z4 : decode 0x240c = .error .zField := by decide
theorem test_decode_bit63 : decode 0x8000000000002408 = .error .highBits := by decide
theorem test_table_word : decodeTableWord 16 0x4FF8 = some (.smul 7 7 7) := by decide

/-! ### Single steps, expected results from 95_test_vectors.md -/

/-- C-1. -/
theorem test_ccopy_true : (after (exec (.ccopy 0 1 0)
    (loaded [(0, 0xaaaa), (1, 0x5555)] [(0, true64)]))).map (sourceVal · 0) = some 0x5555 := by decide

/-- C-2. -/
theorem test_ccopy_false : (after (exec (.ccopy 0 1 0)
    (loaded [(0, 0xaaaa), (1, 0x5555)] [(0, 0)]))).map (sourceVal · 0) = some 0xaaaa := by decide

/-- A-3, the carry path. -/
theorem test_fadd_carry : (after (exec (.fadd 2 0 1)
    (loaded [(0, primeQ - 1), (1, primeQ - 1)] []))).map (sourceVal · 2) = some (primeQ - 2) := by
  decide

/-- A-20, outside the contract. -/
theorem test_fadd_out_of_range : (after (exec (.fadd 0 0 0)
    (loaded [(0, primeQ)] []))).map (sourceVal · 0) = some primeQ := by decide

/-- M-4. -/
theorem test_fmul_one : (after (exec (.fmul 2 0 1)
    (loaded [(0, 1), (1, 1)] []))).map (sourceVal · 2) = some rinvQ := by decide

/-- M-17, `FMUL`. -/
theorem test_fmul_sample : (after (exec (.fmul 2 0 1)
    (loaded [(0, ka), (1, kb)] []))).map (sourceVal · 2) =
    some 0x692ef66f9b4b949d12a7618903d0e6ad379bda9c16e97e1a3ddf4cd7afca5cc216c5021d3504dee7a6b7238ea813bcb4 := by
  decide

/-- M-21. -/
theorem test_smul_rr : (after (exec (.smul 2 0 1)
    (loaded [(0, rrN), (1, 1)] []))).map (sourceVal · 2) = some oneN := by decide

/-- M-17, `SMUL`. -/
theorem test_smul_sample : (after (exec (.smul 2 0 1)
    (loaded [(0, ka), (1, kb)] []))).map (sourceVal · 2) =
    some 0xab27f3f911e371e902823d7746a00d32aef0b3a2705e4dc2a7ce2f9c054f1053407952dfa6fc173b7fd6c46ca0a215a9 := by
  decide

/-- W-28: the issue latches the word and sets `BUSY`. -/
theorem test_issue : (after (step (withPort State.reset [.write 64 0x240 0x2408]))).map
    (fun t => (t.cmdr, t.busy, t.ill)) = some (0x2408, true, false) := by decide

/-- W-32: an illegal word sets `ILL` alone. -/
theorem test_illegal : (after (step (withPort State.reset [.write 64 0x240 0x2409]))).map
    (fun t => (t.cmdr, t.busy, t.ill)) = some (0, false, true) := by decide

/-- W-33: a command is discarded while `ILL = 1`. -/
theorem test_discarded : (after (step (withPort (raiseIllegal State.reset) [.write 64 0x240 0x2408]))).map
    (fun t => (t.cmdr, t.busy, t.ill)) = some (0, false, true) := by decide

/-- W-34: a reset clears `ILL` and the registers. -/
theorem test_reset_step : (after (step (withPort (raiseIllegal (loaded [(0, ka)] [(0, true64)])) [.reset]))).map
    (fun t => (t.ill, sourceVal t 0, readCond t 0)) = some (false, 0, 0) := by decide

/-- W-14: one limb of `E3`. -/
theorem test_limb_write : (after (step (withPort State.reset [.write 64 0x0C8 0x1122334455667788]))).map
    (fun t => readElem t 3) = some #v[0, 0x1122334455667788, 0, 0, 0, 0] := by decide

/-- W-20: `STATUS` with `ILL = 1`. -/
theorem test_status_ill : winRead (raiseIllegal State.reset) 0x248 = 2 := by decide

/-- W-29: `STATUS` with `BUSY = 1`, read without being held. -/
theorem test_status_busy : (after (step (withPort (latchCommand State.reset 0x2408) [.read 64 0x248]))).map
    (fun t => (t.answers, t.busy)) = some ([1], true) := by decide

/-- W-24 to W-27: refused accesses. -/
theorem test_refused_misaligned : refusal (step (withPort State.reset [.read 64 0x004])) =
    some (.accessMisaligned 4) := by decide
theorem test_refused_width : refusal (step (withPort State.reset [.read 32 0x000])) =
    some (.accessWidth 32) := by decide
theorem test_refused_outside : refusal (step (withPort State.reset [.read 64 0x300])) =
    some (.accessOutside 0x300) := by decide

/-- The third byte of `E3` when it holds `Gx` is `0x76` (95_test_vectors.md section 2). -/
theorem test_byte_lane : windowByte (writeLimb State.reset 3 0 0x3a545e3872760ab7) 0x0C2 = 0x76 := by
  decide

/-- A command placed from outside is the one the next step runs. -/
theorem test_fetch_word : (after (step (State.reset.withFetchWord 16 0x2408))).map
    (fun t => (t.cmdr, t.busy, t.port)) = some (0x2408, false, []) := by decide

/-! ### Witnesses: concrete states and operands that meet each statement's hypotheses -/

/-- A sound state with `FADD E2, E0, E1` in flight. -/
def inFlight : State := latchCommand (loaded [(0, 5), (1, 7)] []) 0x2408

theorem inFlight_decodes : decodeLatched inFlight.cmdr = .ok (.fadd 2 0 1) := by decide

theorem inFlight_sound (p : List HostStep) : Sound (withPort inFlight p) :=
  fun _ => ⟨⟨_, inFlight_decodes⟩, rfl⟩

/-- A state that is sound because nothing is in flight. -/
theorem idle_sound {s : State} (h : s.busy = false) : Sound s := fun hb => by simp [h] at hb

theorem witness_DecodeInvertsEncode : decode 0x1FF8 = .ok (.ccopy 7 7 7) := by decide

theorem witness_IllegalDataAndTheirOneEffect : State.reset.ill = false ∧
    (0x10000 : Word).toNat / 2 ^ 16 ≠ 0 ∧ (0x0FF8 : Word).toNat / 2 ^ 12 % 16 = 0 ∧
    5 ≤ (0x5000 : Word).toNat / 2 ^ 12 % 16 ∧ (0x2001 : Word).toNat % 8 ≠ 0 := by decide

theorem witness_CcopyCopiesEveryPattern_true :
    readCond (loaded [(1, primeQ - 1)] [(7, true64)]) 7 = 0xFFFFFFFFFFFFFFFF ∧
    InQ (sourceVal (loaded [(1, primeQ - 1)] [(7, true64)]) 1) ∧
    InN (sourceVal (loaded [(1, orderN - 1)] [(7, true64)]) 1) := by decide

theorem witness_CcopyCopiesEveryPattern_false : readCond State.reset 0 = 0 ∧
    InQ (sourceVal State.reset 0) ∧ InN (sourceVal State.reset 0) := by decide

theorem witness_CcopyConditionWords : readCond (loaded [] [(0, 1)]) 0 ≠ 0 ∧
    readCond (loaded [] [(0, 1)]) 0 ≠ 0xFFFFFFFFFFFFFFFF ∧
    readCond (loaded [] [(0, 0xFFFFFFFFFFFFFFFE)]) 0 ≠ 0xFFFFFFFFFFFFFFFF ∧
    readCond (loaded [] [(0, 0)]) 0 = 0 ∧
    readCond (loaded [] [(0, true64)]) 0 = 0xFFFFFFFFFFFFFFFF := by decide

theorem witness_CcopySameRegister : readCond (loaded [] [(1, 2)]) 1 ≠ 0 ∧
    readCond (loaded [] [(1, 2)]) 1 ≠ 0xFFFFFFFFFFFFFFFF ∧ readCond State.reset 1 = 0 ∧
    readCond (loaded [] [(1, true64)]) 1 = 0xFFFFFFFFFFFFFFFF := by decide

theorem witness_ConditionalSwap : (2 : EReg) ≠ 0 ∧ (2 : EReg) ≠ 1 ∧
    readCond (loaded [(0, 5), (1, 7)] [(0, true64), (1, true64)]) 0 = 0xFFFFFFFFFFFFFFFF ∧
    readCond (loaded [(0, 5), (1, 7)] [(0, true64), (1, true64)]) 1 = 0xFFFFFFFFFFFFFFFF ∧
    readCond (loaded [(0, 5), (1, 7)] [(0, true64), (1, 0)]) 1 = 0 := by decide

/-- The largest in-range sources of the field commands. -/
def topQ : State := loaded [(0, primeQ - 1), (1, primeQ - 1), (2, rrQ), (3, 1)] []

/-- The largest in-range sources of `SMUL`. -/
def topN : State := loaded [(0, orderN - 1), (1, orderN - 1), (2, rrN), (3, 1)] []

theorem witness_FaddContract : InQ (sourceVal topQ 0) ∧ InQ (sourceVal topQ 1) := by decide

/-- Sums at the boundaries of the three paths: `Q - 1`, `Q`, `2^384 - 1`, `2^384`. -/
theorem witness_FaddThreePaths : InQ (primeQ - 1) ∧ InQ oneQ ∧ primeQ - 1 + 0 < primeQ ∧
    primeQ ≤ primeQ - 1 + 1 ∧ primeQ - 1 + oneQ < radix ∧ radix ≤ primeQ - 1 + (oneQ + 1) ∧
    InQ (oneQ + 1) ∧ 0 < oneQ := by decide

/-- Sums of `2Q - 1` and `2Q`, and the rule's two examples. -/
theorem witness_FaddOutsideContract :
    sourceVal (loaded [(0, primeQ), (1, primeQ - 1)] []) 0 +
      sourceVal (loaded [(0, primeQ), (1, primeQ - 1)] []) 1 < 2 * primeQ ∧
    2 * primeQ ≤ sourceVal (loaded [(0, primeQ)] []) 0 + sourceVal (loaded [(0, primeQ)] []) 0 ∧
    sourceVal (loaded [(0, radix - 1), (1, 0)] []) 0 = radix - 1 ∧
    sourceVal (loaded [(0, radix - 1), (1, 0)] []) 1 = 0 ∧
    sourceVal (loaded [(0, primeQ)] []) 0 = primeQ := by decide

theorem witness_FaddSelectFormAgrees : radix - 1 < radix ∧ primeQ < radix := by decide

theorem witness_FaddSameRegisters : InQ (sourceVal topQ 0) := by decide

theorem witness_FmulContract : InQ (sourceVal topQ 0) ∧ InQ (sourceVal topQ 1) := by decide

theorem witness_SmulContract : InN (sourceVal topN 0) ∧ InN (sourceVal topN 1) := by decide

theorem witness_MultiplierOutOfRange : primeQ ≤ sourceVal (loaded [(0, primeQ), (1, 1)] []) 0 ∧
    primeQ ≤ sourceVal (loaded [(0, 1), (1, primeQ)] []) 1 ∧
    orderN ≤ sourceVal (loaded [(0, orderN), (1, 1)] []) 0 ∧
    orderN ≤ sourceVal (loaded [(0, 1), (1, primeQ - 1)] []) 1 := by decide

theorem witness_UnfixedResultsAreFreshDraws : readCond (loaded [] [(3, 1)]) 3 ≠ 0 ∧
    readCond (loaded [] [(3, 1)]) 3 ≠ 0xFFFFFFFFFFFFFFFF ∧
    primeQ ≤ sourceVal (loaded [(4, primeQ)] []) 4 ∧
    orderN ≤ sourceVal (loaded [(4, orderN)] []) 4 := by decide

theorem witness_MontgomeryConsequences :
    (primeQ = primeQ ∧ rinvQ = rinvQ ∨ primeQ = orderN ∧ rinvQ = rinvN) ∧ primeQ - 1 < primeQ ∧
    (orderN = primeQ ∧ rinvN = rinvQ ∨ orderN = orderN ∧ rinvN = rinvN) ∧ orderN - 1 < orderN := by
  decide

theorem witness_MontgomeryConversions : InQ (sourceVal topQ 0) ∧ sourceVal topQ 2 = rrQ ∧
    sourceVal topQ 3 = 1 ∧ InN (sourceVal topN 0) ∧ sourceVal topN 2 = rrN ∧ sourceVal topN 3 = 1 ∧
    InQ (primeQ - 1) ∧ InN (orderN - 1) := by decide

theorem witness_ReferenceKernelAgrees : InQ (elemVal (elemLimbs (primeQ - 1))) ∧
    InN (elemVal (elemLimbs (orderN - 1))) := by decide

theorem witness_MultipliersDifferInModulusOnly : InN (sourceVal topN 0) ∧ InN (sourceVal topN 1) := by
  decide

theorem witness_MultiplierSameRegisters : InQ (sourceVal topQ 0) ∧ InQ (sourceVal topQ 1) ∧
    InQ (sourceVal topQ 2) ∧ InN (sourceVal topN 0) ∧ InN (sourceVal topN 1) ∧
    InN (sourceVal topN 2) := by decide

/-- In contract for each of the four commands; the first byte after the destination `E2`, and the last
before it. -/
theorem witness_CommandFrame : inContract (.ccopy 2 0 0) topQ = true ∧
    inContract (.fadd 2 0 1) topQ = true ∧ inContract (.fmul 2 0 1) topQ = true ∧
    inContract (.smul 2 0 1) topN = true ∧
    0x40 * (destOf (.fadd 2 0 1)).val + 48 ≤ 0xB0 ∧ 0xB0 < 0x300 ∧
    0x7F < 0x40 * (destOf (.fadd 2 0 1)).val := by decide

/-- Two states that agree on the operands and differ elsewhere. -/
theorem witness_CommandReadsOnlyItsOperands :
    readElem topN 0 = readElem (raiseIllegal (writeVal topN 7 9)) 0 ∧
    readElem topN 1 = readElem (raiseIllegal (writeVal topN 7 9)) 1 ∧
    readElem topN 2 = readElem (raiseIllegal (writeVal topN 7 9)) 2 ∧
    readCond topN 0 = readCond (raiseIllegal (writeVal topN 7 9)) 0 ∧
    inContract (.ccopy 2 0 0) topN = true ∧ inContract (.fmul 2 0 1) topN = true ∧
    inContract (.smul 2 0 1) topN = true ∧ topN ≠ raiseIllegal (writeVal topN 7 9) := by decide

/-- Two states with one block, a command in flight within its contract, and different answers and draws. -/
theorem witness_BlockDecidesItsOwnStep :
    ({ inFlight with answers := [7], draws := 12 } : State).toBlock = inFlight.toBlock ∧
    ({ inFlight with answers := [7], draws := 12 } : State).port = inFlight.port ∧
    (∃ t, step inFlight = .next t) ∧ inFlight.busy = true ∧
    (∀ i, decodeLatched inFlight.cmdr = .ok i → inContract i inFlight = true) := by
  refine ⟨rfl, rfl, ⟨_, rfl⟩, rfl, fun i h => ?_⟩
  rw [inFlight_decodes] at h
  cases h
  decide

theorem witness_StepRunsLatchedCommand : inFlight.busy = true ∧ inFlight.port = [] ∧
    decodeLatched inFlight.cmdr = .ok (.fadd 2 0 1) ∧
    (withPort inFlight [.wait]).port = .wait :: [] ∧ (0x240 % 8 = 0 ∧ 0x240 < 0x248) ∧
    (withPort inFlight [.read 64 0x240]).port = .read 64 0x240 :: [] ∧
    (withPort inFlight [.write 64 0x240 0]).port = .write 64 0x240 0 :: [] := by decide

theorem witness_CompleteAlwaysSucceeds : Sound (withPort inFlight []) ∧
    (withPort inFlight []).busy = true ∧ (withPort inFlight []).port = [] ∧
    State.reset.busy = false ∧ State.reset.port = [] :=
  ⟨inFlight_sound [], rfl, rfl, rfl, rfl⟩

/-- A `CMD` write with a legal datum, with an illegal one, and with `ILL = 1`. -/
theorem witness_IssueByCmdWrite : State.reset.busy = false ∧ State.reset.ill = false ∧
    (raiseIllegal State.reset).ill = true ∧ (raiseIllegal State.reset).busy = false ∧
    decode 0x4FF8 = .ok (.smul 7 7 7) ∧ (∀ i, decode 0x4FF9 ≠ .ok i) ∧
    (withPort State.reset [.write 64 0x240 0x4FF9]).port = .write 64 0x240 0x4FF9 :: [] := by
  have h : decode 0x4FF9 = .error .zField := by decide
  exact ⟨rfl, rfl, rfl, rfl, by decide, (fun i hi => by rw [h] at hi; cases hi), rfl⟩

theorem witness_IssueThenCompleteFuses :
    (withPort State.reset [.write 64 0x240 (encode (.fadd 2 0 1)), .wait]).port =
      .write 64 0x240 (encode (.fadd 2 0 1)) :: .wait :: [] ∧
    State.reset.busy = false ∧ State.reset.ill = false := ⟨rfl, rfl, rfl⟩

theorem witness_HeldReadAnswersTheResult :
    (withPort State.reset [.write 64 0x240 (encode (.fadd 7 0 1)), .read 64 0x1E8]).port =
      .write 64 0x240 (encode (.fadd 7 0 1)) ::
        .read 64 (0x40 * (destOf (.fadd 7 0 1)).val + 8 * (5 : Fin 6).val) :: [] ∧
    State.reset.busy = false ∧ State.reset.ill = false := by decide

theorem witness_IllegalEventIsPrecise : State.reset.busy = false ∧ State.reset.ill = false ∧
    (∀ i, decode 0 ≠ .ok i) ∧
    (withPort State.reset [.write 64 0x240 0]).port = .write 64 0x240 0 :: [] ∧
    step (withPort State.reset [.write 64 0x240 0]) = .next (raiseIllegal State.reset) ∧
    (raiseIllegal State.reset).ill = true := by
  have h : decode 0 = .error .opcode := by decide
  exact ⟨rfl, rfl, (fun i hi => by rw [h] at hi; cases hi), rfl, rfl, rfl⟩

theorem witness_CommandsDiscardedWhileIll : Sound (raiseIllegal State.reset) ∧
    (raiseIllegal State.reset).ill = true ∧ (0x2F8 % 8 = 0 ∧ 0x2F8 < 0x300) ∧
    (withPort (raiseIllegal State.reset) [.write 64 0x240 0x2408]).port = .write 64 0x240 0x2408 :: [] ∧
    (withPort (raiseIllegal State.reset) [.read 64 0x2F8]).port = .read 64 0x2F8 :: [] ∧
    (withPort (raiseIllegal State.reset) [.write 64 0x1E8 9]).port =
      .write 64 (0x40 * (7 : EReg).val + 8 * (5 : Fin 6).val) 9 :: [] ∧
    (withPort (raiseIllegal State.reset) [.write 64 0x238 9]).port =
      .write 64 (0x200 + 8 * (7 : KReg).val) 9 :: [] :=
  ⟨idle_sound rfl, rfl, by decide, rfl, rfl, rfl, rfl⟩

theorem witness_IllEndsOnlyByReset : ∃ t,
    Sound (withPort (raiseIllegal State.reset) [.write 64 0x240 0x2408, .read 64 0x248]) ∧
    HostStep.reset ∉ (withPort (raiseIllegal State.reset) [.write 64 0x240 0x2408, .read 64 0x248]).port ∧
    Host.Core.run core 2 (withPort (raiseIllegal State.reset) [.write 64 0x240 0x2408, .read 64 0x248]) =
      .next t :=
  ⟨_, idle_sound rfl, by decide, rfl⟩

/-- The first and last offsets the interlock lets through, and offsets of the last clause. -/
theorem witness_WindowReads : (0x248 % 8 = 0 ∧ 0x248 < 0x300 ∧ 0x248 ≤ 0x248) ∧
    (withPort inFlight [.read 64 0x248]).port = .read 64 0x248 :: [] ∧
    (withPort State.reset [.read 64 0]).port = .read 64 0 :: [] ∧
    (∀ (r : EReg) (i : Fin 6), (0x2F8 : Nat) ≠ 0x40 * r.val + 8 * i.val) ∧
    (∀ c : KReg, (0x2F8 : Nat) ≠ 0x200 + 8 * c.val) ∧ (∀ i : Fin 6, (0x2F8 : Nat) ≠ 0x280 + 8 * i.val) ∧
    (∀ i : Fin 6, (0x2F8 : Nat) ≠ 0x2C0 + 8 * i.val) := by decide

/-- The last limb, the last condition register, `CMD`, and a word that ignores writes, all idle. -/
theorem witness_WindowWrites : State.reset.busy = false ∧
    (0x1E8 : Nat) = 0x40 * (7 : EReg).val + 8 * (5 : Fin 6).val ∧
    (0x238 : Nat) = 0x200 + 8 * (7 : KReg).val ∧ 0x240 % 8 = 0 ∧ 0x240 < 0x300 ∧
    (∀ (r : EReg) (i : Fin 6), (0x1F0 : Nat) ≠ 0x40 * r.val + 8 * i.val) ∧
    (∀ c : KReg, (0x1F0 : Nat) ≠ 0x200 + 8 * c.val) ∧
    (withPort State.reset [.write 64 0x1E8 9]).port = .write 64 0x1E8 9 :: [] := by decide

theorem witness_ReadOnlyWordsIgnoreWrites : State.reset.busy = false ∧
    (inFlight.busy = true ∧ 0x248 ≤ 0x280 ∧ 0x280 % 8 = 0 ∧ 0x280 < 0x300) ∧
    (∀ (r : EReg) (i : Fin 6), (0x280 : Nat) ≠ 0x40 * r.val + 8 * i.val) ∧
    (∀ c : KReg, (0x280 : Nat) ≠ 0x200 + 8 * c.val) ∧
    (withPort State.reset [.write 64 0x280 0, .read 64 0x280]).port =
      .write 64 0x280 0 :: .read 64 0x280 :: [] ∧ (0x258 ≤ 0x278 ∧ 0x278 ≤ 0x278 ∧ 0x278 % 8 = 0) ∧
    (0x1F8 : Nat) = 0x038 + 0x40 * (7 : EReg).val := by decide

theorem witness_ReadAfterWriteAnswersIt : State.reset.busy = false ∧
    (∃ (r : EReg) (i : Fin 6), (0 : Nat) = 0x40 * r.val + 8 * i.val) ∧
    (∃ c : KReg, (0x238 : Nat) = 0x200 + 8 * c.val) ∧
    (withPort State.reset [.write 64 0 9, .read 64 0]).port = .write 64 0 9 :: .read 64 0 :: [] :=
  ⟨rfl, ⟨0, 0, rfl⟩, ⟨7, rfl⟩, rfl⟩

theorem witness_BadAccessRefused : (withPort inFlight [.read 128 0]).port = .read 128 0 :: [] ∧
    (128 : Nat) ≠ 64 ∧ (withPort inFlight [.write 64 0x2FC 0]).port = .write 64 0x2FC 0 :: [] ∧
    0x2FC % 8 ≠ 0 ∧ (withPort inFlight [.read 64 0x300]).port = .read 64 0x300 :: [] ∧ 0x300 ≤ 0x300 := by
  decide

theorem witness_OnlyBadAccessesStop : Sound (withPort inFlight [.read 64 0x300]) ∧
    (HostStep.read 64 0x300).wellFormed = false := ⟨inFlight_sound _, by decide⟩

/-- The highest held offset, the lowest that is never held, and a reset before a held access. -/
theorem witness_InterlockHoldsAccesses : Sound (withPort inFlight [.read 64 0x240]) ∧
    inFlight.busy = true ∧ (0x240 % 8 = 0 ∧ 0x240 < 0x248) ∧ (0x248 % 8 = 0 ∧ 0x248 ≤ 0x248 ∧ 0x248 < 0x300) ∧
    (withPort inFlight [.read 64 0x240]).port = .read 64 0x240 :: [] ∧
    (withPort inFlight [.write 64 0x240 0]).port = .write 64 0x240 0 :: [] ∧
    (withPort inFlight [.reset, .read 64 0x240]).port = .reset :: .read 64 0x240 :: [] ∧
    (withPort inFlight [.read 64 0x248]).port = .read 64 0x248 :: [] :=
  ⟨inFlight_sound _, rfl, by decide, by decide, rfl, rfl, rfl, rfl⟩

theorem witness_ByteAndLimbOrder : 0x2F8 % 8 = 0 ∧ 0x2F8 < 0x300 ∧ 7 < 8 ∧ 47 < 48 := by decide

theorem witness_ScriptLoadsAndReadsElement : State.reset.busy = false ∧ radix - 1 < radix ∧
    (withPort State.reset (scriptWre 7 (radix - 1))).port = scriptWre 7 (radix - 1) ++ [] ∧
    (withPort State.reset (scriptRde 7)).port = scriptRde 7 ++ [] := by
  exact ⟨rfl, by decide, (List.append_nil _).symm, (List.append_nil _).symm⟩

theorem witness_StatusRegister :
    (withPort inFlight [.read 64 0x248]).port = .read 64 0x248 :: [] ∧
    (withPort inFlight [.write 64 0x248 0]).port = .write 64 0x248 0 :: [] ∧ 2 ≤ 63 := by decide

theorem witness_CfgRegister :
    (withPort inFlight [.write 64 0x250 0]).port = .write 64 0x250 0 :: [] := by decide

theorem witness_ScalarRangeInsideFieldRange :
    orderN ≤ sourceVal (loaded [(0, orderN), (1, 1)] []) 0 ∧
    sourceVal (loaded [(0, orderN), (1, 1)] []) 0 < primeQ ∧
    InQ (sourceVal (loaded [(0, orderN), (1, 1)] []) 1) ∧ InN (orderN - 1) ∧
    orderN ≤ primeQ - 1 ∧ primeQ - 1 < primeQ := by decide

theorem witness_ResetValues : (withPort inFlight [.reset]).port = .reset :: [] := by decide

/-- A busy state and an idle one that differ in registers, `BUSY` and `CMDR` and agree on the rest. -/
theorem witness_ResetAbandonsCommand :
    (withPort inFlight [.reset, .read 64 0x080]).busy = true ∧ 0x080 % 8 = 0 ∧ 0x080 < 0x248 ∧
    (withPort inFlight [.reset, .read 64 0x080]).port = .reset :: .read 64 0x080 :: [] ∧
    (withPort State.reset [.reset, .read 64 0x080]).port =
      (withPort inFlight [.reset, .read 64 0x080]).port ∧
    State.reset.answers = inFlight.answers ∧ State.reset.draws = inFlight.draws ∧
    State.reset ≠ inFlight := by decide

theorem witness_SoundKeptByEveryStep : Sound (withPort State.reset [.write 64 0x240 0x2408]) ∧
    ∃ t, step (withPort State.reset [.write 64 0x240 0x2408]) = .next t ∧ t.busy = true :=
  ⟨idle_sound rfl, _, rfl, by decide⟩

theorem witness_CommandInFlightEnds :
    Sound (withPort inFlight [.read 64 0x248, .write 64 0x2F8 0, .read 64 0x080]) ∧
    (withPort inFlight [.read 64 0x248, .write 64 0x2F8 0, .read 64 0x080]).busy = true ∧
    (∀ h ∈ (withPort inFlight [.read 64 0x248, .write 64 0x2F8 0, .read 64 0x080]).port,
      h.wellFormed = true) := ⟨inFlight_sound _, rfl, by decide⟩

/-- A step of each of the three kinds that changes an element register. -/
theorem witness_WhoWritesElements :
    (∃ t, step inFlight = .next t ∧ readElem t 2 ≠ readElem inFlight 2) ∧
    (∃ t, step (withPort State.reset [.write 64 0x1E8 9]) = .next t ∧
      readElem t 7 ≠ readElem (withPort State.reset [.write 64 0x1E8 9]) 7) ∧
    (∃ t, step (withPort inFlight [.reset]) = .next t ∧
      readElem t 0 ≠ readElem (withPort inFlight [.reset]) 0) :=
  ⟨⟨_, rfl, by decide⟩, ⟨_, rfl, by decide⟩, ⟨_, rfl, by decide⟩⟩

theorem witness_WhoWritesConditions :
    (∃ t, step (withPort State.reset [.write 64 0x238 9]) = .next t ∧
      readCond t 7 ≠ readCond (withPort State.reset [.write 64 0x238 9]) 7) ∧
    (∃ t, step (withPort (loaded [] [(0, 1)]) [.reset]) = .next t ∧
      readCond t 0 ≠ readCond (withPort (loaded [] [(0, 1)]) [.reset]) 0) :=
  ⟨⟨_, rfl, by decide⟩, ⟨_, rfl, by decide⟩⟩

end Sys2Proof.Tests
end

section
/-! SUPPORT. The command word as a number, and that the decoder gives back what the encoder laid
down, from the datum the host writes and from its 16 latched bits (30_encoding.md R81, R86, R88,
R89). -/

namespace Sys2Proof

/-- The command word is the number with the four fields at their places (R81). -/
theorem toNat_encodeFields (op : BitVec 4) (rd ra rb : Fin 8) :
    (encodeFields op rd ra rb).toNat =
      2 ^ 12 * op.toNat + 2 ^ 9 * rd.val + 2 ^ 6 * ra.val + 2 ^ 3 * rb.val := by
  have hop := op.isLt
  have shiftedFields : (encodeFields op rd ra rb).toNat =
      2 ^ 12 * op.toNat ||| 2 ^ 9 * rd.val ||| 2 ^ 6 * ra.val ||| 2 ^ 3 * rb.val := by
    simp only [encodeFields, BitVec.toNat_or, BitVec.toNat_shiftLeft, BitVec.toNat_setWidth,
      BitVec.toNat_ofNat, Nat.shiftLeft_eq]
    congr 1
    · congr 1
      · congr 1 <;> omega
      · omega
    · omega
  rw [shiftedFields, ← Nat.two_pow_add_eq_or_of_lt (by omega : 2 ^ 9 * rd.val < 2 ^ 12),
    show 2 ^ 12 * op.toNat + 2 ^ 9 * rd.val = 2 ^ 9 * (2 ^ 3 * op.toNat + rd.val) by ring,
    ← Nat.two_pow_add_eq_or_of_lt (by omega : 2 ^ 6 * ra.val < 2 ^ 9),
    show 2 ^ 9 * (2 ^ 3 * op.toNat + rd.val) + 2 ^ 6 * ra.val =
      2 ^ 6 * (2 ^ 6 * op.toNat + 2 ^ 3 * rd.val + ra.val) by ring,
    ← Nat.two_pow_add_eq_or_of_lt (by omega : 2 ^ 3 * rb.val < 2 ^ 6)]

/-! ### The fields of a datum as digits of its number (R80, R81). -/

theorem toNat_fieldHigh (v : Word) : (fieldHigh v).toNat = v.toNat / 2 ^ 16 := by
  have := v.isLt
  simp only [fieldHigh, BitVec.extractLsb'_toNat, Nat.shiftRight_eq_div_pow]
  omega

theorem val_fieldRd (v : Word) : (fieldRd v).val = v.toNat / 2 ^ 9 % 8 := by
  simp only [fieldRd, BitVec.val_toFin, BitVec.extractLsb'_toNat, Nat.shiftRight_eq_div_pow,
    Nat.reducePow]

theorem val_fieldRa (v : Word) : (fieldRa v).val = v.toNat / 2 ^ 6 % 8 := by
  simp only [fieldRa, BitVec.val_toFin, BitVec.extractLsb'_toNat, Nat.shiftRight_eq_div_pow,
    Nat.reducePow]

theorem val_fieldRb (v : Word) : (fieldRb v).val = v.toNat / 2 ^ 3 % 8 := by
  simp only [fieldRb, BitVec.val_toFin, BitVec.extractLsb'_toNat, Nat.shiftRight_eq_div_pow,
    Nat.reducePow]

theorem toNat_fieldZ (v : Word) : (fieldZ v).toNat = v.toNat % 8 := by
  simp only [fieldZ, BitVec.extractLsb'_toNat, Nat.shiftRight_zero, Nat.reducePow]

/-! ### The fields of an encoded command are those it was encoded from (R86). -/

@[simp] theorem fieldHigh_encodeFields (op : BitVec 4) (rd ra rb : Fin 8) :
    fieldHigh (encodeFields op rd ra rb) = 0#48 := by
  have hop := op.isLt
  apply BitVec.eq_of_toNat_eq
  rw [toNat_fieldHigh, toNat_encodeFields, BitVec.toNat_zero]
  omega

@[simp] theorem fieldZ_encodeFields (op : BitVec 4) (rd ra rb : Fin 8) :
    fieldZ (encodeFields op rd ra rb) = 0#3 := by
  apply BitVec.eq_of_toNat_eq
  rw [toNat_fieldZ, toNat_encodeFields, BitVec.toNat_zero]
  omega

@[simp] theorem fieldRd_encodeFields (op : BitVec 4) (rd ra rb : Fin 8) :
    fieldRd (encodeFields op rd ra rb) = rd := by
  apply Fin.ext
  rw [val_fieldRd, toNat_encodeFields]
  omega

@[simp] theorem fieldRa_encodeFields (op : BitVec 4) (rd ra rb : Fin 8) :
    fieldRa (encodeFields op rd ra rb) = ra := by
  apply Fin.ext
  rw [val_fieldRa, toNat_encodeFields]
  omega

@[simp] theorem fieldRb_encodeFields (op : BitVec 4) (rd ra rb : Fin 8) :
    fieldRb (encodeFields op rd ra rb) = rb := by
  apply Fin.ext
  rw [val_fieldRb, toNat_encodeFields]
  omega

/-- Decoding an encoded command gives it back (R86). -/
@[simp] theorem decode_encode (i : Instr) : decode (encode i) = .ok i := by
  cases i <;> simp [encode, decode, Laws.EncodesLegally.fieldOp_encodeFields]

/-- A datum that is a command has no bit above its low 16 (R85, condition 1). -/
theorem fieldHigh_of_decode {v : Word} {i : Instr} (h : decode v = .ok i) : fieldHigh v = 0#48 := by
  unfold decode at h
  split at h
  · cases h
  · next hhigh => exact not_not.1 hhigh

/-- Latching the low 16 bits of a command's datum loses nothing (R88, R89). -/
theorem decodeLatched_setWidth {v : Word} {i : Instr} (h : decode v = .ok i) :
    decodeLatched (v.setWidth 16) = .ok i := by
  have hhigh : v.toNat / 2 ^ 16 = 0 := by
    rw [← toNat_fieldHigh, fieldHigh_of_decode h, BitVec.toNat_zero]
  have hsame : (v.setWidth 16).setWidth 64 = v := by
    apply BitVec.eq_of_toNat_eq
    simp only [BitVec.toNat_setWidth]
    omega
  rw [decodeLatched, hsame, h]

end Sys2Proof
end

section
/-! SUPPORT. What a command reads and what it leaves: its `exec` is a function of `E`, `K` and the
draw counter and changes `E` and the draw counter alone (00_scope.md R11; 30_encoding.md R89). -/

namespace Sys2Proof.Machine

/-- `CCOPY` under a word that is no condition draws its destination (R101). -/
theorem exec_ccopy_of_neither {s : State} {kc : KReg} (h : sourceCond s kc = .neither)
    (rd ra : EReg) : exec (.ccopy rd ra kc) s = .next (drawElem s rd) := by
  simp only [exec, execCcopy, h]

/-- A word that is neither of the two conditions is of the third class (R101). -/
theorem sourceCond_eq_neither {s : State} {kc : KReg} (hfalse : readCond s kc ≠ false64)
    (htrue : readCond s kc ≠ true64) : sourceCond s kc = .neither := by
  simp only [sourceCond, condClass, if_neg htrue, if_neg hfalse]

/-- A multiplier with a source at or above its modulus draws its destination (R125). -/
theorem montCommand_of_out_of_range {m : Nat} {s : State} {ra rb : EReg}
    (h : m ≤ sourceVal s ra ∨ m ≤ sourceVal s rb) (rinv : Nat) (rd : EReg) :
    montCommand m rinv rd ra rb s = drawElem s rd := by
  rw [montCommand, if_neg (by omega)]

/-- Each limb of a drawn register is the next free value in turn (R101, R125). -/
@[simp] theorem readLimb_drawElem_same (s : State) (r : EReg) (i : Fin 6) :
    readLimb (drawElem s r) r i = Config.freeLimb (s.draws + i.val) := by
  rw [readLimb, readElem_drawElem_same, freeElem_limb]

/-- Every command answers a next state (R140). -/
theorem exec_total (i : Instr) (s : State) : ∃ t, exec i s = .next t := by
  obtain ⟨hfault, hrefused⟩ := exec_ne_stop i s
  cases h : exec i s with
  | next t => exact ⟨t, rfl⟩
  | fault f => exact absurd h (hfault f)
  | refused r => exact absurd h (hrefused r)

section
variable {s u : State} (he : u.e = s.e) (hk : u.k = s.k) (hd : u.draws = s.draws)
include he

/-- An element register is read from `E` alone (R21). -/
theorem readElem_congr (r : EReg) : readElem u r = readElem s r := by
  rw [readElem, readElem, he]

/-- The value of an element operand is read from `E` alone (R110, R122). -/
theorem sourceVal_congr (r : EReg) : sourceVal u r = sourceVal s r := by
  rw [sourceVal, sourceVal, readElem_congr he]

include hd

/-- One write of an element register gives the same `E` wherever `E` is the same (R13). -/
theorem writeElem_congr (r : EReg) (x : Elem) :
    writeElem u r x = { u with e := (writeElem s r x).e, draws := (writeElem s r x).draws } := by
  simp only [writeElem, he, ← hd]

/-- One draw gives the same limbs wherever `E` and the draw counter are the same (R101). -/
theorem drawElem_congr (r : EReg) :
    drawElem u r = { u with e := (drawElem s r).e, draws := (drawElem s r).draws } := by
  simp only [drawElem, writeElem, he, hd]

/-- A multiplier does the same wherever `E` and the draw counter are the same (R122, R123, R125). -/
theorem montCommand_congr (m rinv : Nat) (rd ra rb : EReg) :
    montCommand m rinv rd ra rb u =
      { u with e := (montCommand m rinv rd ra rb s).e
               draws := (montCommand m rinv rd ra rb s).draws } := by
  rw [montCommand, sourceVal_congr he, sourceVal_congr he, montCommand]
  split
  · exact writeElem_congr he hd rd _
  · exact drawElem_congr he hd rd

include hk

/-- A command reads nothing but `E`, `K` and the draw counter: from another state with the same
three it makes the same `E` and the same draws and keeps the rest of that state. -/
theorem exec_congr {i : Instr} {t : State} (h : exec i s = .next t) :
    exec i u = .next { u with e := t.e, draws := t.draws } := by
  cases i with
  | ccopy rd ra kc =>
    have hc : sourceCond u kc = sourceCond s kc := by
      rw [sourceCond, sourceCond, readCond, readCond, hk]
    simp only [exec, execCcopy, hc] at h ⊢
    split at h <;> cases h
    · rw [readElem_congr he, writeElem_congr he hd]
    · rw [← he, ← hd]
    · rw [drawElem_congr he hd]
  | fadd rd ra rb =>
    cases h
    simp only [exec, execFadd, sourceVal_congr he]
    exact congrArg _ (writeElem_congr he hd rd _)
  | fmul rd ra rb => cases h; exact congrArg _ (montCommand_congr he hd ..)
  | smul rd ra rb => cases h; exact congrArg _ (montCommand_congr he hd ..)

end

/-- A command changes nothing but `E` and the draw counter (R89). -/
theorem exec_frame {i : Instr} {s t : State} (h : exec i s = .next t) :
    t = { s with e := t.e, draws := t.draws } :=
  Host.Outcome.next.inj (h.symm.trans (exec_congr rfl rfl rfl h))

end Sys2Proof.Machine
end

section
/-! SUPPORT. The two steps of a command at the port: the `CMD` write that issues it, and the
core's turn that completes it (30_encoding.md R88, R89). -/

namespace Sys2Proof.Machine

/-- A command's datum is latched while `ILL = 0` (R88). -/
theorem issue_of_decode {s : State} {v : Word} {i : Instr} (hill : s.ill = false)
    (hv : decode v = .ok i) : issue s v = latchCommand s (v.setWidth 16) := by
  simp [issue, hill, hv]

/-- A command's datum written to `CMD` with `BUSY = 0` and `ILL = 0` is latched (R59, R88). -/
theorem step_cmd_write {s : State} {v : Word} {i : Instr} {rest : List HostStep}
    (hbusy : s.busy = false) (hill : s.ill = false) (hv : decode v = .ok i)
    (hp : s.port = .write 64 0x240 v :: rest) :
    step s = .next (latchCommand (withPort s rest) (v.setWidth 16)) := by
  rw [step_write hp (by decide) (by decide) (held_of_idle hbusy _)]
  exact congrArg _ (issue_of_decode hill hv)

/-- The core's turn with `BUSY = 1` performs the latched command and clears `BUSY` (R89). -/
theorem coreTurn_of_latched {s : State} {i : Instr} (hbusy : s.busy = true)
    (hc : decodeLatched s.cmdr = .ok i) : coreTurn s = finish (exec i s) := by
  simp [coreTurn, complete, hbusy, hc]

/-- A wait at the head of the port gives the core its turn, which with `BUSY = 1` completes the
latched command (R89; log entry 3). -/
theorem step_wait_of_latched {s : State} {i : Instr} {rest : List HostStep} (hbusy : s.busy = true)
    (hc : decodeLatched s.cmdr = .ok i) (hp : s.port = .wait :: rest) :
    step s = finish (exec i (withPort s rest)) := by
  rw [step, turn, hp]
  exact coreTurn_of_latched hbusy hc

end Sys2Proof.Machine
end

section
/-! The statements of 00_scope.md. -/

namespace Sys2Proof.Machine

/-- Settles O20: each of the three cases is one `drawElem` of the destination. -/
theorem unfixedResultsAreFreshDraws : Obligations.UnfixedResultsAreFreshDraws := by
  refine ⟨fun s rd ra kc hfalse htrue => ?_, fun s rd ra rb h => ?_, fun s rd ra rb h => ?_⟩
  · exact ⟨drawElem s rd, exec_ccopy_of_neither (sourceCond_eq_neither hfalse htrue) rd ra, rfl,
      readLimb_drawElem_same s rd⟩
  · exact ⟨drawElem s rd, congrArg _ (montCommand_of_out_of_range h rinvQ rd), rfl,
      readLimb_drawElem_same s rd⟩
  · exact ⟨drawElem s rd, congrArg _ (montCommand_of_out_of_range h rinvN rd), rfl,
      readLimb_drawElem_same s rd⟩

/-- Settles O31: the state in flight has the `E`, `K` and draw counter of the state before, which
is all that the completing command reads. -/
theorem issueThenCompleteFuses : Obligations.IssueThenCompleteFuses := by
  intro s i rest hbusy hill hp
  obtain ⟨t, ht⟩ := exec_total i s
  refine ⟨t, ht, ?_⟩
  have hlatched := decodeLatched_setWidth (decode_encode i)
  have hissue := step_cmd_write hbusy hill (decode_encode i) hp
  generalize (encode i).setWidth 16 = c at hlatched hissue ⊢
  have hturn := step_wait_of_latched (latchCommand_busy (withPort s (.wait :: rest)) c) hlatched rfl
  have hexec := exec_congr (s := s)
    (u := withPort (latchCommand (withPort s (.wait :: rest)) c) rest) rfl rfl rfl ht
  rw [hexec, finish_next] at hturn
  rw [run_next hissue, run_next hturn, run_zero]
  obtain ⟨x, d, rfl⟩ : ∃ x d, t = { s with e := x, draws := d } := ⟨_, _, exec_frame ht⟩
  rfl

end Sys2Proof.Machine
end

section
/-! SUPPORT. The element a command within its contract writes, as a function of the operands it
names (10_state.md R40; 30_encoding.md R82). -/

namespace Sys2Proof.Machine

open Sys2Proof.Safety

/-- Two states agree on every register the command names: its sources, and for `CCOPY` its
destination, which it may keep, and its condition (R40, R82). -/
def AgreeOnOperands (i : Instr) (s u : State) : Prop :=
  match i with
  | .ccopy rd ra kc => readElem s ra = readElem u ra ∧ readElem s rd = readElem u rd ∧
      readCond s kc = readCond u kc
  | .fadd _ ra rb | .fmul _ ra rb | .smul _ ra rb =>
    readElem s ra = readElem u ra ∧ readElem s rb = readElem u rb

/-- The element the destination holds after a command within its contract (R100, R110, R122,
R123). -/
def definedResult (i : Instr) (s : State) : Elem :=
  match i with
  | .ccopy rd ra kc =>
    match sourceCond s kc with
    | .isTrue => readElem s ra
    | _ => readElem s rd
  | .fadd _ ra rb => elemLimbs (fieldSum (sourceVal s ra) (sourceVal s rb))
  | .fmul _ ra rb => elemLimbs (montMul (sourceVal s ra) (sourceVal s rb) primeQ rinvQ)
  | .smul _ ra rb => elemLimbs (montMul (sourceVal s ra) (sourceVal s rb) orderN rinvN)

/-- A register written with what it holds is no change. -/
@[simp] theorem writeElem_readElem_self (s : State) (r : EReg) :
    writeElem s r (readElem s r) = s := by
  simp [writeElem, readElem]

/-- A multiplier with both sources in range writes the Montgomery product (R122, R123). -/
theorem montCommand_of_in_range {m : Nat} {s : State} {ra rb : EReg} (ha : sourceVal s ra < m)
    (hb : sourceVal s rb < m) (rinv : Nat) (rd : EReg) :
    montCommand m rinv rd ra rb s =
      writeVal s rd (montMul (sourceVal s ra) (sourceVal s rb) m rinv) :=
  if_pos ⟨ha, hb⟩

/-- `FADD` writes its sum whatever the patterns (R110, R113). -/
theorem exec_fadd_writes (rd ra rb : EReg) (s : State) :
    exec (.fadd rd ra rb) s = .next (writeElem s rd (definedResult (.fadd rd ra rb) s)) := rfl

/-- A command within its contract writes its defined result and draws nothing (R40, R168). -/
theorem exec_of_inContract {i : Instr} {s : State} (h : inContract i s = true) :
    exec i s = .next (writeElem s (destOf i) (definedResult i s)) := by
  cases i with
  | ccopy rd ra kc =>
    simp only [inContract, bne_iff_ne] at h
    cases hc : sourceCond s kc with
    | isTrue => simp [exec, execCcopy, definedResult, destOf, hc]
    | isFalse => simp [exec, execCcopy, definedResult, destOf, hc]
    | neither => exact absurd hc h
  | fadd rd ra rb => exact exec_fadd_writes rd ra rb s
  | fmul rd ra rb =>
    simp only [inContract, Bool.and_eq_true, decide_eq_true_eq] at h
    obtain ⟨ha, hb⟩ := h
    exact congrArg _ (montCommand_of_in_range ha hb rinvQ rd)
  | smul rd ra rb =>
    simp only [inContract, Bool.and_eq_true, decide_eq_true_eq] at h
    obtain ⟨ha, hb⟩ := h
    exact congrArg _ (montCommand_of_in_range ha hb rinvN rd)

/-- The contract speaks of the operands alone (R168). -/
theorem inContract_congr {i : Instr} {s u : State} (h : AgreeOnOperands i s u) :
    inContract i s = inContract i u := by
  cases i with
  | ccopy rd ra kc =>
    obtain ⟨-, -, hcond⟩ := h
    simp only [inContract, sourceCond, hcond]
  | fadd rd ra rb | fmul rd ra rb | smul rd ra rb =>
    obtain ⟨ha, hb⟩ := h
    have hvalA : sourceVal s ra = sourceVal u ra := congrArg elemVal ha
    have hvalB : sourceVal s rb = sourceVal u rb := congrArg elemVal hb
    simp only [inContract, hvalA, hvalB]

/-- The defined result is a function of the operands alone (R40). -/
theorem definedResult_congr {i : Instr} {s u : State} (h : AgreeOnOperands i s u) :
    definedResult i s = definedResult i u := by
  cases i with
  | ccopy rd ra kc =>
    obtain ⟨hsource, hdest, hcond⟩ := h
    simp only [definedResult, sourceCond, hsource, hdest, hcond]
  | _ =>
    obtain ⟨ha, hb⟩ := h
    simp only [definedResult, sourceVal, ha, hb]

/-- A condition register is read from `K` alone (R25). -/
theorem readCond_congr {s u : State} (hk : u.k = s.k) (c : KReg) : readCond u c = readCond s c := by
  rw [readCond, readCond, hk]

/-- States with the same register files agree on the operands of every command (R40). -/
theorem agreeOnOperands_of_registers {s u : State} (he : s.e = u.e) (hk : s.k = u.k) (i : Instr) :
    AgreeOnOperands i s u := by
  have hreg := readElem_congr he
  have hcond := readCond_congr hk
  cases i with
  | ccopy rd ra kc => exact ⟨hreg ra, hreg rd, hcond kc⟩
  | fadd rd ra rb | fmul rd ra rb | smul rd ra rb => exact ⟨hreg ra, hreg rb⟩

/-- From states that agree on the operands, a command that writes its defined result in both leaves
the same destination. -/
theorem same_destination {i : Instr} {s u : State} (h : AgreeOnOperands i s u)
    (hs : exec i s = .next (writeElem s (destOf i) (definedResult i s)))
    (hu : exec i u = .next (writeElem u (destOf i) (definedResult i u))) :
    ∃ t w, exec i s = .next t ∧ exec i u = .next w ∧
      readElem t (destOf i) = readElem w (destOf i) :=
  ⟨_, _, hs, hu, by simp [definedResult_congr h]⟩

/-- From states that agree on the operands, a command in contract leaves the same destination. -/
theorem same_destination_of_inContract {i : Instr} {s u : State} (h : AgreeOnOperands i s u)
    (hc : inContract i s = true) :
    ∃ t w, exec i s = .next t ∧ exec i u = .next w ∧
      readElem t (destOf i) = readElem w (destOf i) :=
  same_destination h (exec_of_inContract hc) (exec_of_inContract (inContract_congr h ▸ hc))

end Sys2Proof.Machine
end

section
/-! SUPPORT. Which steps can change an element or a condition register (10_state.md R20). -/

namespace Sys2Proof.Machine

open Sys2Proof.Safety

/-! ### `Issue` writes no register (R88). -/

@[simp] theorem issue_e (s : State) (v : Word) : (issue s v).e = s.e := by
  rcases issue_cases s v with ⟨-, h⟩ | ⟨-, -, h⟩ | ⟨-, -, h⟩ <;> simp [h]

@[simp] theorem issue_k (s : State) (v : Word) : (issue s v).k = s.k := by
  rcases issue_cases s v with ⟨-, h⟩ | ⟨-, -, h⟩ | ⟨-, -, h⟩ <;> simp [h]

/-- A command leaves every element register but its destination as it was (R41). -/
theorem readElem_exec_other {i : Instr} {s t : State} {r : EReg} (h : exec i s = .next t)
    (hr : r ≠ destOf i) : readElem t r = readElem s r := by
  rcases exec_cases h with rfl | ⟨x, rfl⟩ | rfl
  · rfl
  · exact readElem_writeElem_other s x hr
  · exact readElem_drawElem_other s hr

/-- The core's turn changes an element register only as the destination of the command in flight
(R41, R89). -/
theorem latched_of_coreTurn_changes_elem {s t : State} {r : EReg} (h : coreTurn s = .next t)
    (hne : readElem t r ≠ readElem s r) :
    s.busy = true ∧ ∃ i, decodeLatched s.cmdr = .ok i ∧ destOf i = r := by
  rcases coreTurn_cases h with ⟨hbusy, i, u, hi, hu, rfl⟩ | ⟨-, rfl⟩
  · refine ⟨hbusy, i, hi, ?_⟩
    by_contra hr
    have hkeep := readElem_exec_other hu (Ne.symm hr)
    exact hne hkeep
  · exact absurd rfl hne

/-- The core's turn changes no condition register (R25). -/
theorem coreTurn_k {s t : State} (h : coreTurn s = .next t) : t.k = s.k := by
  rcases coreTurn_cases h with ⟨-, i, u, -, hu, rfl⟩ | ⟨-, rfl⟩
  · rw [clearBusy_k, exec_frame hu]
  · rfl

/-- A window write changes an element register only at one of its limbs (R59). -/
theorem windowWord_of_winWrite_changes_elem {s : State} {off : Nat} {v : Word} {r : EReg}
    (hne : readElem (winWrite s off v) r ≠ readElem s r) : ∃ i, windowWord off = .limb r i := by
  rcases winWrite_cases s off v with ⟨r', i, hw, h⟩ | ⟨c, -, h⟩ | ⟨-, h⟩ | h <;> rw [h] at hne
  · by_cases hr : r = r'
    · exact ⟨i, hr ▸ hw⟩
    · exact absurd (readElem_writeElem_other s _ hr) hne
  · exact absurd (readElem_congr (writeCond_e s c v) r) hne
  · exact absurd (readElem_congr (issue_e s v) r) hne
  · exact absurd rfl hne

/-- A window write changes a condition register only at its word (R59). -/
theorem windowWord_of_winWrite_changes_cond {s : State} {off : Nat} {v : Word} {c : KReg}
    (hne : readCond (winWrite s off v) c ≠ readCond s c) : windowWord off = .cond c := by
  rcases winWrite_cases s off v with ⟨r, i, -, h⟩ | ⟨c', hw, h⟩ | ⟨-, h⟩ | h <;> rw [h] at hne
  · exact absurd rfl hne
  · by_cases hc : c = c'
    · exact hc ▸ hw
    · exact absurd (readCond_writeCond_other s v hc) hne
  · exact absurd (readCond_congr (issue_k s v) c) hne
  · exact absurd rfl hne

/-- An access below `0x248` that is not held finds `BUSY = 0` (R58). -/
theorem idle_of_not_held {s : State} {off : Nat} (h : held s off = false) (ho : off < 0x248) :
    s.busy = false := by
  simpa [held, ho] using h

end Sys2Proof.Machine
end

section
/-! SUPPORT. The model's own answers and draw counter (log entries 1, 4 and 11) do not decide what a
step does to the block and to the pending steps (10_state.md R20). -/

namespace Sys2Proof.Machine

open Sys2Proof.Safety

/-- `s` with other answers and another draw counter. -/
def withRecord (s : State) (answers : List Word) (draws : Nat) : State :=
  { s with answers := answers, draws := draws }

@[simp] theorem withRecord_toBlock (s : State) (a : List Word) (d : Nat) :
    (withRecord s a d).toBlock = s.toBlock := rfl
@[simp] theorem withRecord_port (s : State) (a : List Word) (d : Nat) :
    (withRecord s a d).port = s.port := rfl

/-- States of the same block and pending steps differ in answers and draw counter only. -/
theorem eq_withRecord {s u : State} (hblock : u.toBlock = s.toBlock) (hport : u.port = s.port) :
    u = withRecord s u.answers u.draws := by
  cases u
  simp_all [withRecord]

/-- Issue neither reads nor changes the record (R88). -/
theorem issue_withRecord (s : State) (v : Word) (a : List Word) (d : Nat) :
    issue (withRecord s a d) v = withRecord (issue s v) a d := by
  cases hill : s.ill with
  | true => simp [issue, hill]
  | false => cases hv : decode v <;> simp [issue, hill, hv] <;> rfl

/-- A window write neither reads nor changes the record (R59). -/
theorem winWrite_withRecord (s : State) (off : Nat) (v : Word) (a : List Word) (d : Nat) :
    winWrite (withRecord s a d) off v = withRecord (winWrite s off v) a d := by
  unfold winWrite
  cases windowWord off with
  | cmd => exact issue_withRecord s v a d
  | _ => rfl

/-- The command in flight, if there is one, is within its contract (R168). -/
def InFlightInContract (s : State) : Prop :=
  s.busy = true → ∀ i, decodeLatched s.cmdr = .ok i → inContract i s = true

/-- The core's turn on a command in contract neither reads nor changes the record (R40, R89). -/
theorem coreTurn_withRecord {s t : State} (h : coreTurn s = .next t) (hc : InFlightInContract s)
    (a : List Word) (d : Nat) : coreTurn (withRecord s a d) = .next (withRecord t a d) := by
  rcases coreTurn_cases h with ⟨hbusy, i, u, hi, hu, rfl⟩ | ⟨hidle, rfl⟩
  · have hagree : AgreeOnOperands i s (withRecord s a d) := agreeOnOperands_of_registers rfl rfl i
    have hs := hc hbusy i hi
    have hexec := exec_of_inContract (inContract_congr hagree ▸ hs)
    obtain rfl := Host.Outcome.next.inj ((exec_of_inContract hs).symm.trans hu)
    rw [coreTurn_of_latched (s := withRecord s a d) hbusy hi, hexec, finish_next,
      definedResult_congr hagree]
    rfl
  · simp [coreTurn, hidle]

/-- A step, with a command in flight in contract, does not read the record but for what it adds to
it (R20, R40). -/
theorem step_withRecord {s t : State} (h : step s = .next t) (hc : InFlightInContract s)
    (a : List Word) (d : Nat) :
    ∃ a', step (withRecord s a d) = .next (withRecord t a' d) := by
  unfold step turn at h ⊢
  rw [withRecord_port]
  split at h
  · exact ⟨a, coreTurn_withRecord h hc a d⟩
  · next rest hp =>
    have hc' : InFlightInContract (withPort s rest) := fun hbusy i hi =>
      inContract_congr (agreeOnOperands_of_registers (s := s) rfl rfl i) ▸ hc hbusy i hi
    exact ⟨a, coreTurn_withRecord h hc' a d⟩
  · cases h
    exact ⟨a, rfl⟩
  · next width off rest hp =>
    split at h
    · cases h
    · split at h
      · next hh => exact ⟨a, (if_pos hh).trans (coreTurn_withRecord h hc a d)⟩
      · next hh =>
        cases h
        exact ⟨winRead s off :: a, if_neg hh⟩
  · next width off v rest hp =>
    split at h
    · cases h
    · split at h
      · next hh => exact ⟨a, (if_pos hh).trans (coreTurn_withRecord h hc a d)⟩
      · next hh =>
        cases h
        exact ⟨a, (if_neg hh).trans (congrArg _ (winWrite_withRecord (withPort s rest) off v a d))⟩

end Sys2Proof.Machine
end

section
/-! SUPPORT. The constants of the window, the state after reset, and the accesses the interlock never
holds (10_state.md R35, R36, R42; 20_memory.md R51, R58). -/

namespace Sys2Proof.Machine

open Sys2Proof.Safety

/-- No access at `0x248` or above is held (R58). -/
theorem held_of_ge {off : Nat} (h : 0x248 ≤ off) (s : State) : held s off = false := by
  simp [held, Nat.not_lt.2 h]

/-- The word at each offset of `Q` (R51). -/
@[simp] theorem windowWord_q (i : Fin 6) : windowWord (0x280 + 8 * i.val) = .q i := by
  revert i
  decide

/-- The word at each offset of `N` (R51). -/
@[simp] theorem windowWord_n (i : Fin 6) : windowWord (0x2C0 + 8 * i.val) = .n i := by
  revert i
  decide

/-- A read of a limb of `Q` (R57). -/
theorem winRead_q (s : State) (i : Fin 6) :
    winRead s (0x280 + 8 * i.val) = (elemLimbs primeQ)[i] := by
  rw [winRead, windowWord_q]

/-- A read of a limb of `N` (R57). -/
theorem winRead_n (s : State) (i : Fin 6) :
    winRead s (0x2C0 + 8 * i.val) = (elemLimbs orderN)[i] := by
  rw [winRead, windowWord_n]

/-- A read of `STATUS` (R35). -/
theorem winRead_status (s : State) : winRead s 0x248 = statusWord s := rfl

/-- A read of `CFG` (R36). -/
theorem winRead_cfg (s : State) : winRead s 0x250 = cfgWord := rfl

/-- `STATUS` bit by bit (R35). -/
theorem getLsbD_statusWord (s : State) (i : Nat) :
    (statusWord s).getLsbD i = if i = 0 then s.busy else if i = 1 then s.ill else false := by
  match i with
  | 0 => cases hbusy : s.busy <;> cases hill : s.ill <;> simp [statusWord, hbusy, hill]
  | 1 => cases hbusy : s.busy <;> cases hill : s.ill <;> simp [statusWord, hbusy, hill]
  | i + 2 => simp [statusWord]

/-- `STATUS` reads 0 with nothing in flight and `ILL = 0` (R35). -/
theorem statusWord_eq_zero {s : State} (hbusy : s.busy = false) (hill : s.ill = false) :
    statusWord s = 0 := by
  simp [statusWord, hbusy, hill]

/-- A reset at the head of the port is taken in every state (R160). -/
theorem step_reset {s : State} {rest : List HostStep} (hp : s.port = .reset :: rest) :
    step s = .next (resetBlock (withPort s rest)) := by
  rw [step, turn, hp]

/-- A block of the reset value has every limb 0 (R42). -/
theorem readLimb_of_blockReset {s : State} (h : s.toBlock = blockReset) (r : EReg) (i : Fin 6) :
    readLimb s r i = 0 := by
  simp [readLimb, readElem, h]

/-- A block of the reset value has every condition register 0 (R42). -/
theorem readCond_of_blockReset {s : State} (h : s.toBlock = blockReset) (c : KReg) :
    readCond s c = 0 := by
  simp [readCond, h]

/-- Every condition register is `False64` at reset (R42). -/
@[simp] theorem sourceCond_reset (c : KReg) : sourceCond State.reset c = .isFalse := by
  revert c
  decide

set_option exponentiation.threshold 400 in
/-- Every element register is the number 0 at reset (R42). -/
@[simp] theorem sourceVal_reset (r : EReg) : sourceVal State.reset r = 0 := by
  revert r
  decide

/-- A scalar is a field element (R24). -/
theorem inQ_of_inN {v : Nat} (h : InN v) : InQ v := h.trans moduli_lt.1

/-- Every command is in contract at reset: each source is 0, each condition word `False64` (R43). -/
theorem inContract_reset (i : Instr) : inContract i State.reset = true := by
  cases i with
  | ccopy rd ra kc =>
    rw [inContract, sourceCond_reset]
    decide
  | _ =>
    simp only [inContract, sourceVal_reset]
    decide

set_option exponentiation.threshold 400 in
/-- Every command's result at reset is 0 (R43). -/
theorem elemVal_definedResult_reset (i : Instr) : elemVal (definedResult i State.reset) = 0 := by
  cases i with
  | ccopy rd ra kc =>
    simp only [definedResult, sourceCond_reset]
    exact sourceVal_reset rd
  | _ =>
    simp only [definedResult, sourceVal_reset]
    decide

/-- A command run at reset leaves 0 in its destination (R43). -/
theorem exec_reset (i : Instr) :
    ∃ t, exec i State.reset = .next t ∧ sourceVal t (destOf i) = 0 :=
  ⟨_, exec_of_inContract (inContract_reset i), by
    rw [sourceVal, readElem_writeElem_same, elemVal_definedResult_reset]⟩

end Sys2Proof.Machine
end

section
/-! The statements of 10_state.md. -/

namespace Sys2Proof.Machine

open Sys2Proof.Safety

/-- Settles O27: each command writes its defined result, a function of the operands it names. -/
theorem commandReadsOnlyItsOperands : Obligations.CommandReadsOnlyItsOperands := by
  refine ⟨fun s u rd ra kc hsource hdest hcond hc => ?_, fun s u rd ra rb ha hb =>
    ⟨?_, fun hc => ?_, fun hc => ?_⟩⟩
  · exact same_destination_of_inContract (i := .ccopy rd ra kc) ⟨hsource, hdest, hcond⟩ hc
  · exact same_destination (i := .fadd rd ra rb) ⟨ha, hb⟩ (exec_fadd_writes rd ra rb s)
      (exec_fadd_writes rd ra rb u)
  · exact same_destination_of_inContract (i := .fmul rd ra rb) ⟨ha, hb⟩ hc
  · exact same_destination_of_inContract (i := .smul rd ra rb) ⟨ha, hb⟩ hc

/-- Settles O57: the core's turn writes the latched command's destination alone, and a performed
write changes the register whose limb lies at its offset. -/
theorem whoWritesElements : Obligations.WhoWritesElements := by
  intro s t r h hne
  rcases step_cases h with ⟨-, hcore⟩ | ⟨rest, hp, hcore⟩ | ⟨rest, hp, rfl⟩ |
    ⟨off, rest, hp, ha, ho, hh, rfl⟩ | ⟨off, v, rest, hp, ha, ho, hh, rfl⟩
  · exact .inl (latched_of_coreTurn_changes_elem hcore hne)
  · exact .inl (latched_of_coreTurn_changes_elem (s := withPort s rest) hcore hne)
  · exact .inr (.inr ⟨rest, hp⟩)
  · exact absurd rfl hne
  · obtain ⟨i, hi⟩ := windowWord_of_winWrite_changes_elem (s := withPort s rest) hne
    obtain ⟨hlow, hreg, hlimb⟩ := windowWord_eq_limb hi
    exact .inr (.inl ⟨off, v, rest, idle_of_not_held hh (by omega), hp, by omega, by omega⟩)

/-- Settles O58: the core's turn keeps `K`, and a performed write changes the condition register
whose word lies at its offset. -/
theorem whoWritesConditions : Obligations.WhoWritesConditions := by
  intro s t c h hne
  rcases step_cases h with ⟨-, hcore⟩ | ⟨rest, hp, hcore⟩ | ⟨rest, hp, rfl⟩ |
    ⟨off, rest, hp, ha, ho, hh, rfl⟩ | ⟨off, v, rest, hp, ha, ho, hh, rfl⟩
  · exact absurd (readCond_congr (coreTurn_k hcore) c) hne
  · exact absurd (readCond_congr (coreTurn_k hcore) c) hne
  · exact .inr ⟨rest, hp⟩
  · exact absurd rfl hne
  · have hc := windowWord_of_winWrite_changes_cond (s := withPort s rest) hne
    obtain ⟨hlow, hhigh, hreg⟩ := windowWord_eq_cond hc
    obtain rfl : off = 0x200 + 8 * c.val := by omega
    exact .inl ⟨v, rest, idle_of_not_held hh (by omega), hp⟩

/-- Settles O59: the two states differ in the model's own record alone, which a step in contract
does not read. -/
theorem blockDecidesItsOwnStep : Obligations.BlockDecidesItsOwnStep := by
  intro s u t hblock hport h hc
  rw [eq_withRecord hblock hport]
  obtain ⟨a, ha⟩ := step_withRecord h hc u.answers u.draws
  exact ⟨_, ha, rfl, rfl⟩

/-- Settles O45: `STATUS` lies above what the interlock holds, and no write reaches it. -/
theorem statusRegister : Obligations.StatusRegister := by
  intro s v rest
  have hh : held s 0x248 = false := held_of_ge (le_refl _) s
  refine ⟨?_, ?_, fun i hi => ?_, rfl, fun hp => ?_, fun hp => ?_⟩
  · rw [winRead_status, getLsbD_statusWord, if_pos rfl]
  · rw [winRead_status, getLsbD_statusWord, if_neg one_ne_zero, if_pos rfl]
  · rw [winRead_status, getLsbD_statusWord, if_neg (by omega), if_neg (by omega)]
  · exact step_read hp (by decide) (by decide) hh
  · exact step_write hp (by decide) (by decide) hh

/-- Settles O46: `CFG` is the constant word in every state, and no write reaches it. -/
theorem cfgRegister : Obligations.CfgRegister := by
  intro s v rest
  rw [winRead_cfg]
  refine ⟨rfl, by decide, by decide, by decide, by decide, by decide, fun hp => ?_⟩
  exact step_write hp (by decide) (by decide) (held_of_ge (by decide) s)

/-- Settles O48, by evaluation of the two products. -/
theorem reductionConstants : Obligations.ReductionConstants := by
  unfold Obligations.ReductionConstants
  decide

set_option exponentiation.threshold 800 in
/-- Settles O49: each constant is a literal, and evaluation compares it with its description. -/
theorem modulusTableDigits : Obligations.ModulusTableDigits := by
  exact ⟨by decide, by decide, by decide, moduli_lt.1, by decide, by decide,
    by decide, Nat.mul_comm .. ▸ rinvQ_spec, by decide, Nat.mul_comm .. ▸ rinvN_spec,
    by decide, by decide, by decide, by decide, by decide⟩

/-- Settles O50, with `N` itself as the field element that is no scalar. -/
theorem scalarRangeInsideFieldRange : Obligations.ScalarRangeInsideFieldRange := by
  refine ⟨fun v => inQ_of_inN, fun v hn hq => ⟨hq, Nat.not_lt.2 hn⟩,
    ⟨orderN, moduli_lt.1, lt_irrefl _⟩, fun s rd ra rb hn hq hb => ?_, fun r => ?_⟩
  · simp [inContract, InQ, InN, hq, hb, Nat.not_lt.2 hn]
  · rw [sourceVal_reset]
    decide

/-- Settles O51: the first state and the state after a reset step both have the reset block. -/
theorem resetValues : Obligations.ResetValues := by
  refine ⟨readLimb_of_blockReset rfl, readCond_of_blockReset rfl, rfl, rfl, rfl,
    fun s rest hp => ⟨_, step_reset hp, ?_⟩⟩
  have hblock := resetBlock_toBlock (withPort s rest)
  exact ⟨readLimb_of_blockReset hblock, readCond_of_blockReset hblock, rfl, rfl, rfl, rfl,
    statusWord_eq_zero rfl rfl, winRead_cfg _, winRead_q _, rfl, winRead_n _, rfl⟩

/-- Settles O53: each command is in contract at reset, and its result there is 0. -/
theorem resetRegistersInContract : Obligations.ResetRegistersInContract := by
  intro rd ra rb
  exact ⟨exec_reset (.fadd rd ra rb), exec_reset (.fmul rd ra rb), exec_reset (.smul rd ra rb)⟩

/-- Settles O55: nothing is in flight at reset. -/
theorem soundAtReset : Obligations.SoundAtReset :=
  fun hbusy => absurd hbusy Bool.false_ne_true

end Sys2Proof.Machine
end

section
/-! SUPPORT. What a read and a write of each offset of the window do (20_memory.md R51, R55, R57,
R59). -/

namespace Sys2Proof.Machine

/-! ### The one aligned offset of each writable word (R51). -/

theorem offset_of_limb {off : Nat} {r : EReg} {i : Fin 6} (ha : off % 8 = 0)
    (h : windowWord off = .limb r i) : off = 0x40 * r.val + 8 * i.val := by
  obtain ⟨-, hreg, hlimb⟩ := windowWord_eq_limb h
  omega

theorem offset_of_cond {off : Nat} {c : KReg} (ha : off % 8 = 0) (h : windowWord off = .cond c) :
    off = 0x200 + 8 * c.val := by
  obtain ⟨hlow, -, hreg⟩ := windowWord_eq_cond h
  omega

theorem offset_of_cmd {off : Nat} (ha : off % 8 = 0) (h : windowWord off = .cmd) : off = 0x240 := by
  have hword := windowWord_eq_cmd h
  omega

/-! ### Reads and writes of the registers (R57, R59). -/

theorem winRead_limb (s : State) (r : EReg) (i : Fin 6) :
    winRead s (0x40 * r.val + 8 * i.val) = readLimb s r i := by
  rw [winRead, windowWord_limb]

theorem winRead_cond (s : State) (c : KReg) : winRead s (0x200 + 8 * c.val) = readCond s c := by
  rw [winRead, windowWord_cond]

theorem winWrite_limb (s : State) (r : EReg) (i : Fin 6) (v : Word) :
    winWrite s (0x40 * r.val + 8 * i.val) v = writeLimb s r i v := by
  rw [winWrite, windowWord_limb]

theorem winWrite_cond (s : State) (c : KReg) (v : Word) :
    winWrite s (0x200 + 8 * c.val) v = writeCond s c v := by
  rw [winWrite, windowWord_cond]

/-- A limb is read from `E` alone (R21). -/
theorem readLimb_congr {s u : State} (he : u.e = s.e) (r : EReg) (i : Fin 6) :
    readLimb u r i = readLimb s r i := by
  rw [readLimb, readLimb, readElem_congr he]

/-- `STATUS` as a number (R35). -/
theorem toNat_statusWord (s : State) : (statusWord s).toNat = 2 * s.ill.toNat + s.busy.toNat := by
  cases hill : s.ill <;> cases hbusy : s.busy <;> simp [statusWord, hill, hbusy]

/-- A write to an offset that is no limb, no condition register and not `CMD` is ignored (R55). -/
theorem winWrite_eq_self {off : Nat} (ha : off % 8 = 0)
    (hlimb : ∀ (r : EReg) (i : Fin 6), off ≠ 0x40 * r.val + 8 * i.val)
    (hcond : ∀ c : KReg, off ≠ 0x200 + 8 * c.val) (hcmd : off ≠ 0x240) (s : State) (v : Word) :
    winWrite s off v = s := by
  rcases winWrite_cases s off v with ⟨r, i, hw, -⟩ | ⟨c, hw, -⟩ | ⟨hw, -⟩ | h
  · exact absurd (offset_of_limb ha hw) (hlimb r i)
  · exact absurd (offset_of_cond ha hw) (hcond c)
  · exact absurd (offset_of_cmd ha hw) hcmd
  · exact h

/-- A read of an offset that is no readable word answers 0 (R55, R57). -/
theorem winRead_eq_zero {off : Nat} (ha : off % 8 = 0)
    (hlimb : ∀ (r : EReg) (i : Fin 6), off ≠ 0x40 * r.val + 8 * i.val)
    (hcond : ∀ c : KReg, off ≠ 0x200 + 8 * c.val) (hstatus : off ≠ 0x248) (hcfg : off ≠ 0x250)
    (hq : ∀ i : Fin 6, off ≠ 0x280 + 8 * i.val) (hqn0 : off ≠ 0x2B0)
    (hn : ∀ i : Fin 6, off ≠ 0x2C0 + 8 * i.val) (hnn0 : off ≠ 0x2F0) (s : State) :
    winRead s off = 0 := by
  have hmap := windowWord_spec off
  rw [winRead]
  cases hw : windowWord off with
  | cmd | reserved => rfl
  | limb r i => exact absurd (offset_of_limb ha hw) (hlimb r i)
  | cond c => exact absurd (offset_of_cond ha hw) (hcond c)
  | q i =>
    rw [hw] at hmap
    have hne := hq i
    omega
  | n i =>
    rw [hw] at hmap
    have hne := hn i
    omega
  | status | cfg | qn0 | nn0 =>
    rw [hw] at hmap
    omega

/-- Issue takes nothing from the port and adds nothing to it (R88). -/
@[simp] theorem issue_port (s : State) (v : Word) : (issue s v).port = s.port := by
  rcases issue_cases s v with ⟨-, h⟩ | ⟨-, -, h⟩ | ⟨-, -, h⟩ <;> simp [h]

/-- A window write leaves the pending steps as they are (R59). -/
@[simp] theorem winWrite_port (s : State) (off : Nat) (v : Word) :
    (winWrite s off v).port = s.port := by
  rcases winWrite_cases s off v with ⟨r, i, -, h⟩ | ⟨c, -, h⟩ | ⟨-, h⟩ | h <;> simp [h]

end Sys2Proof.Machine
end

section
/-! SUPPORT. Accesses at the head of the port: performed, held or refused (20_memory.md R53, R58,
R60). -/

namespace Sys2Proof.Machine

open Sys2Proof.Safety

/-- With `BUSY = 1` only at or above `0x248`, an access is not held (R58). -/
theorem held_eq_false {s : State} {off : Nat} (h : s.busy = true → 0x248 ≤ off) :
    held s off = false := by
  cases hbusy : s.busy with
  | false => exact held_of_idle hbusy off
  | true => exact held_of_ge (h hbusy) s

/-- A write and then a read of the same offset, neither of them held, are two steps (R57, R59). -/
theorem run_write_read {s t : State} {off : Nat} {v : Word} {rest : List HostStep}
    (hp : s.port = .write 64 off v :: .read 64 off :: rest) (ha : off % 8 = 0) (ho : off < 0x300)
    (hh : held s off = false) (hw : winWrite (withPort s (.read 64 off :: rest)) off v = t)
    (hread : held t off = false) :
    Host.Core.run core 2 s = .next (hostRead (withPort t rest) off) := by
  have hfirst := step_write hp ha ho hh
  rw [hostWrite, hw] at hfirst
  have hport : t.port = .read 64 off :: rest := by rw [← hw, winWrite_port, withPort_port]
  exact (run_next hfirst 1).trans (run_next (step_read hport ha ho hread) 0)

/-- A legal access that is held gives the turn to the core (R58). -/
theorem step_of_held {s : State} {off : Nat} {v : Word} {rest : List HostStep}
    (hp : s.port = .read 64 off :: rest ∨ s.port = .write 64 off v :: rest) (ha : off % 8 = 0)
    (hbusy : s.busy = true) (ho : off < 0x248) : step s = coreTurn s := by
  have hlegal := (accessRefusal_none_iff 64 off).2 ⟨rfl, ha, by omega⟩
  have hheld := (held_iff s off).2 ⟨hbusy, ho⟩
  rcases hp with hp | hp <;> simp [step, turn, hp, hlegal, hheld]

/-- A command in flight is completed by the step that finds a held access at the head of the port
(R58, R89). -/
theorem step_of_held_latched {s t : State} {i : Instr} {off : Nat} {v : Word}
    {rest : List HostStep}
    (hp : s.port = .read 64 off :: rest ∨ s.port = .write 64 off v :: rest) (ha : off % 8 = 0)
    (ho : off < 0x248) (hbusy : s.busy = true) (hi : decodeLatched s.cmdr = .ok i)
    (ht : exec i s = .next t) : step s = .next (clearBusy t) := by
  rw [step_of_held hp ha hbusy ho, coreTurn_of_latched hbusy hi, ht, finish_next]

/-- An access the port has a name of refusal for is refused by that name (R53). -/
theorem step_of_refused {s : State} {width off : Nat} {v : Word} {rest : List HostStep}
    {why : Refusal} (hp : s.port = .read width off :: rest ∨ s.port = .write width off v :: rest)
    (h : accessRefusal width off = some why) : step s = .refused why := by
  rcases hp with hp | hp <;> simp [step, turn, hp, h]

/-- The name of a refusal is one of the three grounds (R53). -/
theorem accessRefusal_cases {width off : Nat} {why : Refusal}
    (h : accessRefusal width off = some why) :
    why = .accessWidth width ∨ why = .accessMisaligned off ∨ why = .accessOutside off := by
  unfold accessRefusal at h
  split_ifs at h <;> cases h
  · exact .inl rfl
  · exact .inr (.inl rfl)
  · exact .inr (.inr rfl)

/-- An access that is not legal has a name of refusal (R52, R53). -/
theorem accessRefusal_of_illegal {width off : Nat} (h : legalAccess width off = false) :
    ∃ why, accessRefusal width off = some why := by
  rw [← Option.ne_none_iff_exists', Ne, accessRefusal_none_iff_legal, h]
  exact Bool.false_ne_true

/-- With a command in flight in a sound state the core's turn completes it and leaves what the host
has pending and has been told (R89). -/
theorem coreTurn_of_sound {s : State} (hs : Sound s) (hbusy : s.busy = true) :
    ∃ t, coreTurn s = .next t ∧ t.busy = false ∧ t.port = s.port ∧ t.answers = s.answers := by
  obtain ⟨⟨i, hi⟩, -⟩ := hs hbusy
  obtain ⟨u, hu⟩ := exec_total i s
  refine ⟨clearBusy u, by rw [coreTurn_of_latched hbusy hi, hu, finish_next], rfl, ?_, ?_⟩
  · rw [clearBusy_port, exec_frame hu]
  · rw [clearBusy_answers, exec_frame hu]

/-- The core's turn in a sound state answers a next state (R89, R153). -/
theorem coreTurn_total {s : State} (hs : Sound s) : ∃ t, coreTurn s = .next t := by
  cases hbusy : s.busy with
  | false => exact ⟨s, by simp [coreTurn, hbusy]⟩
  | true =>
    obtain ⟨t, ht, -⟩ := coreTurn_of_sound hs hbusy
    exact ⟨t, ht⟩

/-- A step in a sound state answers a next state unless an ill-formed access heads the port (R53,
R89, R140). -/
theorem step_total {s : State} (hs : Sound s)
    (hhead : ∀ h rest, s.port = h :: rest → h.wellFormed = true) : ∃ t, step s = .next t := by
  have legal {width off : Nat} (h : legalAccess width off = true) :=
    (accessRefusal_none_iff width off).1 ((accessRefusal_none_iff_legal width off).2 h)
  match hp : s.port with
  | [] =>
    rw [step, turn, hp]
    exact coreTurn_total hs
  | .wait :: rest =>
    rw [step, turn, hp]
    exact coreTurn_total (s := withPort s rest) hs
  | .reset :: rest => exact ⟨_, step_reset hp⟩
  | .read width off :: rest =>
    obtain ⟨rfl, ha, ho⟩ := legal (hhead _ _ hp)
    cases hh : held s off with
    | false => exact ⟨_, step_read hp ha ho hh⟩
    | true =>
      obtain ⟨hbusy, hlow⟩ := (held_iff s off).1 hh
      exact step_of_held (v := 0) (.inl hp) ha hbusy hlow ▸ coreTurn_total hs
  | .write width off v :: rest =>
    obtain ⟨rfl, ha, ho⟩ := legal (hhead _ _ hp)
    cases hh : held s off with
    | false => exact ⟨_, step_write hp ha ho hh⟩
    | true =>
      obtain ⟨hbusy, hlow⟩ := (held_iff s off).1 hh
      exact step_of_held (.inr hp) ha hbusy hlow ▸ coreTurn_total hs

/-- An ill-formed access at the head of the port is refused in every state (R53). -/
theorem step_of_illFormed {s : State} {h : HostStep} {rest : List HostStep}
    (hp : s.port = h :: rest) (hbad : h.wellFormed = false) : ∃ why, step s = .refused why := by
  cases h with
  | read width off =>
    obtain ⟨why, hwhy⟩ := accessRefusal_of_illegal hbad
    exact ⟨why, step_of_refused (v := 0) (.inl hp) hwhy⟩
  | write width off v =>
    obtain ⟨why, hwhy⟩ := accessRefusal_of_illegal hbad
    exact ⟨why, step_of_refused (.inr hp) hwhy⟩
  | reset | wait => cases hbad

end Sys2Proof.Machine
end

section
/-! SUPPORT. The bytes of the window as digits of the words and of the element values (20_memory.md
R54; 00_scope.md R13). -/

namespace Sys2Proof.Machine

/-- Byte lane `j` of a word is its `j`-th base-256 digit (R54). -/
theorem toNat_byteLane (v : Word) (j : Nat) :
    (byteLane v j).toNat = v.toNat / 2 ^ (8 * j) % 256 := by
  rw [byteLane, BitVec.extractLsb'_toNat, Nat.shiftRight_eq_div_pow]

/-- A byte of an aligned word of the window is that byte lane of the word (R54). -/
theorem windowByte_of_aligned (s : State) {off j : Nat} (ha : off % 8 = 0) (hj : j < 8) :
    windowByte s (off + j) = byteLane (winRead s off) j := by
  rw [windowByte, show (off + j) / 8 * 8 = off by omega, show (off + j) % 8 = j by omega]

set_option exponentiation.threshold 400 in
/-- Limb `i` of an element is the `i`-th base-`2^64` digit of its value (R13). -/
theorem toNat_limb (x : Elem) (i : Fin 6) : x[i].toNat = elemVal x / 2 ^ (64 * i.val) % 2 ^ 64 := by
  have hdigit : (elemLimbs (elemVal x))[i].toNat = elemVal x / 2 ^ (64 * i.val) % 2 ^ 64 := by
    fin_cases i <;> simp [elemLimbs]
  rwa [elemLimbs_elemVal] at hdigit

/-- A byte of a 64-bit digit of a number is a byte of the number. -/
theorem byte_of_digit (n i : Nat) {k : Nat} (hk : k < 8) :
    n / 2 ^ (64 * i) % 2 ^ 64 / 2 ^ (8 * k) % 256 = n / 256 ^ (8 * i + k) % 256 := by
  have hsplit : 2 ^ 64 = 2 ^ (8 * k) * 2 ^ (64 - 8 * k) := by
    rw [← pow_add]
    congr 1
    omega
  have hdvd : 256 ∣ 2 ^ (64 - 8 * k) := pow_dvd_pow 2 (by omega : 8 ≤ 64 - 8 * k)
  have hpow : 2 ^ (64 * i) * 2 ^ (8 * k) = 256 ^ (8 * i + k) := by
    rw [show 256 = 2 ^ 8 by rfl, ← pow_mul, ← pow_add]
    congr 1
    ring
  rw [hsplit, Nat.mod_mul_right_div_self, Nat.mod_mod_of_dvd _ hdvd, Nat.div_div_eq_div_mul, hpow]

end Sys2Proof.Machine
end

section
/-! The statements of 20_memory.md. -/

namespace Sys2Proof.Machine

open Sys2Proof.Safety

/-- Settles O40: an access with one of the three defects is not legal, so it has a name of refusal,
and each name is of one of the three grounds. -/
theorem badAccessRefused : Obligations.BadAccessRefused := by
  intro s width off v rest hp hbad
  have hillegal : legalAccess width off = false := by
    rw [← Bool.not_eq_true, ← accessRefusal_none_iff_legal, accessRefusal_none_iff]
    omega
  obtain ⟨why, hwhy⟩ := accessRefusal_of_illegal hillegal
  rw [step_of_refused hp hwhy]
  rcases accessRefusal_cases hwhy with rfl | rfl | rfl
  · exact .inl rfl
  · exact .inr (.inl rfl)
  · exact .inr (.inr rfl)

/-- Settles O36: each listed word by its place in the map, every other by `winRead_eq_zero`. -/
theorem windowReads : Obligations.WindowReads := by
  refine ⟨fun s => ⟨winRead_limb s, winRead_cond s, toNat_statusWord s, winRead_cfg s, winRead_q s,
    rfl, winRead_n s, rfl, ?_⟩, fun s off rest ha ho hbusy hp => ?_⟩
  · intro off ha _ hlimb hcond hstatus hcfg hq hqn0 hn hnn0
    exact winRead_eq_zero ha hlimb hcond hstatus hcfg hq hqn0 hn hnn0 s
  · exact step_read hp ha ho (held_eq_false hbusy)

/-- Settles O37: the step is one `winWrite`, which is a limb write, a condition write, an issue or
nothing by the word at the offset. -/
theorem windowWrites : Obligations.WindowWrites := by
  intro s off v rest ha ho hbusy hp
  have hstep := step_write hp ha ho (held_eq_false hbusy)
  refine ⟨fun r i hoff => ?_, fun c hoff => ?_, fun hoff => ?_, fun hlimb hcond hcmd => ?_⟩
  · subst hoff
    rw [hostWrite, winWrite_limb] at hstep
    exact ⟨_, hstep, readLimb_writeLimb_same _ r i v,
      fun r' i' hne => readLimb_writeLimb_other _ v hne, rfl, rfl, rfl, rfl, rfl, rfl, rfl⟩
  · subst hoff
    rw [hostWrite, winWrite_cond] at hstep
    exact ⟨_, hstep, readCond_writeCond_same _ c v,
      fun c' hne => readCond_writeCond_other _ v hne, rfl, rfl, rfl, rfl, rfl, rfl, rfl⟩
  · subst hoff
    exact hstep
  · rwa [hostWrite, winWrite_eq_self ha hlimb hcond hcmd] at hstep

/-- Settles O38: the write leaves the state, so the read answers what it answered before. -/
theorem readOnlyWordsIgnoreWrites : Obligations.ReadOnlyWordsIgnoreWrites := by
  refine ⟨fun s off v rest ha ho hbusy hlimb hcond hcmd hp => ?_, fun s off h => ?_⟩
  · have hh := held_eq_false hbusy
    exact run_write_read (t := withPort s (.read 64 off :: rest)) hp ha ho hh
      (winWrite_eq_self ha hlimb hcond hcmd _ v) hh
  · rcases h with rfl | ⟨hlow, hhigh, ha⟩ | rfl | rfl | ⟨r, hpad⟩
    · rfl
    · exact winRead_eq_zero ha (by omega) (by omega) (by omega) (by omega) (by omega) (by omega)
        (by omega) (by omega) s
    · rfl
    · rfl
    · exact winRead_eq_zero (by omega) (by omega) (by omega) (by omega) (by omega) (by omega)
        (by omega) (by omega) (by omega) s

/-- Settles O39: a register write keeps `BUSY = 0`, so the read is not held and finds the value. -/
theorem readAfterWriteAnswersIt : Obligations.ReadAfterWriteAnswersIt := by
  intro s off v rest hbusy hoff hp
  have hh := held_of_idle hbusy off
  rcases hoff with ⟨r, i, rfl⟩ | ⟨c, rfl⟩
  · refine ⟨_, run_write_read hp (by omega) (by omega) hh (winWrite_limb _ r i v) hh, ?_⟩
    rw [hostRead_answers, winRead_limb]
    exact ⟨congrArg (· :: s.answers) (readLimb_writeLimb_same _ r i v), rfl, hbusy, rfl⟩
  · refine ⟨_, run_write_read hp (by omega) (by omega) hh (winWrite_cond _ c v) hh, ?_⟩
    rw [hostRead_answers, winRead_cond]
    exact ⟨congrArg (· :: s.answers) (readCond_writeCond_same _ c v), rfl, hbusy, rfl⟩

/-- Settles O41: a head that is well-formed, or none, gives a next state; an ill-formed one a
refusal. -/
theorem onlyBadAccessesStop : Obligations.OnlyBadAccessesStop := by
  intro s hs
  by_cases hbad : ∃ h rest, s.port = h :: rest ∧ h.wellFormed = false
  · obtain ⟨h, rest, hp, hill⟩ := hbad
    obtain ⟨why, hwhy⟩ := step_of_illFormed hp hill
    rw [hwhy]
    exact ⟨fun f => nofun, fun _ => ⟨h, rest, hp, hill⟩, fun _ => ⟨why, rfl⟩⟩
  · obtain ⟨t, ht⟩ := step_total hs fun h rest hp =>
      (Bool.not_eq_false _).mp fun hill => hbad ⟨h, rest, hp, hill⟩
    rw [ht]
    exact ⟨fun f => nofun, nofun, fun h => absurd h hbad⟩

/-- Settles O42: a held access gives the core its turn, after which `BUSY = 0` and nothing is held;
a reset clears `BUSY` as well. -/
theorem interlockHoldsAccesses : Obligations.InterlockHoldsAccesses := by
  refine ⟨fun s off v rest hs hbusy ha ho => ?_, fun s off v rest hbusy ha hlow ho =>
    ⟨fun hp => ?_, fun hp => ?_⟩⟩
  · have hin : off < 0x300 := by omega
    obtain ⟨t, hturn, hidle, hport, hanswers⟩ := coreTurn_of_sound hs hbusy
    have hh := held_of_idle hidle off
    refine ⟨fun hp => ⟨t, ?_, hidle, hport, hanswers, ?_⟩,
      fun hp => ⟨t, ?_, hidle, hport, hanswers, ?_⟩, fun hp => ⟨_, step_reset hp, rfl, ?_⟩⟩
    · rw [step_of_held (v := v) (.inl hp) ha hbusy ho, hturn]
    · exact step_read (hport.trans hp) ha hin hh
    · rw [step_of_held (.inr hp) ha hbusy ho, hturn]
    · exact step_write (hport.trans hp) ha hin hh
    · exact step_read (s := resetBlock (withPort s (.read 64 off :: rest))) rfl ha hin
        (held_of_idle rfl off)
  · exact step_read hp ha ho (held_of_ge hlow s)
  · rw [step_write hp ha ho (held_of_ge hlow s), hostWrite,
      winWrite_eq_self ha (by omega) (by omega) (by omega)]
    rfl

/-- Settles O32: the read is held for the core's turn, which completes the command on the registers
as they were before the issue, and then answers the destination's limb. -/
theorem heldReadAnswersTheResult : Obligations.HeldReadAnswersTheResult := by
  intro s i j rest hbusy hill hp
  obtain ⟨t, ht⟩ := exec_total i s
  have hlatched := decodeLatched_setWidth (decode_encode i)
  have hissue := step_cmd_write hbusy hill (decode_encode i) hp
  generalize (encode i).setWidth 16 = c at hlatched hissue
  generalize hoff : 0x40 * (destOf i).val + 8 * j.val = off at hp hissue
  have hexec := exec_congr (s := s) (u := latchCommand (withPort s (.read 64 off :: rest)) c)
    rfl rfl rfl ht
  have hturn := step_of_held_latched (v := 0) (.inl rfl) (by omega) (by omega)
    (latchCommand_busy _ c) hlatched hexec
  obtain ⟨w, hw, he, hidle, hport, hanswers⟩ :
      ∃ w, step (latchCommand (withPort s (.read 64 off :: rest)) c) = .next w ∧ w.e = t.e ∧
        w.busy = false ∧ w.port = .read 64 off :: rest ∧ w.answers = s.answers :=
    ⟨_, hturn, rfl, rfl, rfl, rfl⟩
  have hread := step_read hport (by omega) (by omega) (held_of_idle hidle off)
  refine ⟨t, _, ht, (run_next hissue 2).trans ((run_next hw 1).trans (run_next hread 0)),
    ?_, he, hidle, rfl⟩
  rw [hostRead_answers, ← hoff, winRead_limb, withPort_answers, hanswers,
    readLimb_congr (u := withPort w rest) he]

/-- Settles O43: byte `j` of the slot is byte lane `j % 8` of limb `j / 8`, which is a digit of the
value. -/
theorem byteAndLimbOrder : Obligations.ByteAndLimbOrder := by
  refine ⟨fun s off j ha _ hj => ?_, fun s r j hj => ?_⟩
  · rw [windowByte_of_aligned s ha hj, toNat_byteLane]
  · have hbyte := windowByte_of_aligned s (off := 0x40 * r.val + 8 * (j / 8)) (j := j % 8)
      (by omega) (by omega)
    have hread := winRead_limb s r ⟨j / 8, by omega⟩
    rw [show 0x40 * r.val + j = 0x40 * r.val + 8 * (j / 8) + j % 8 by omega, hbyte, hread,
      toNat_byteLane, readLimb, toNat_limb, byte_of_digit _ _ (by omega), sourceVal,
      Nat.div_add_mod]

end Sys2Proof.Machine
end

section
/-! SUPPORT. The decoder's legal data are exactly the encoded commands, said by fields, by mask and
match, and by count (30_encoding.md R83 to R86). -/

namespace Sys2Proof

open Laws.EncodesLegally (encodeFields_and_mask fieldOp_encodeFields)

theorem toNat_fieldOp (v : Word) : (fieldOp v).toNat = v.toNat / 2 ^ 12 % 16 := by
  simp only [fieldOp, BitVec.extractLsb'_toNat, Nat.shiftRight_eq_div_pow, Nat.reducePow]

/-- A datum whose high bits and `z` field are zero is its opcode and operand fields laid side by side
(R81). -/
theorem encodeFields_of_fields {v : Word} (hhigh : fieldHigh v = 0) (hz : fieldZ v = 0) :
    encodeFields (fieldOp v) (fieldRd v) (fieldRa v) (fieldRb v) = v := by
  have hhigh' : v.toNat / 2 ^ 16 = 0 := by rw [← toNat_fieldHigh, hhigh]; rfl
  have hz' : v.toNat % 8 = 0 := by rw [← toNat_fieldZ, hz]; rfl
  apply BitVec.eq_of_toNat_eq
  rw [toNat_encodeFields, toNat_fieldOp, val_fieldRd, val_fieldRa, val_fieldRb]
  omega

/-- A datum that decodes to a command is that command's encoding: the decoder drops no bit (R86). -/
theorem encode_of_decode {v : Word} {i : Instr} (h : decode v = .ok i) : encode i = v := by
  unfold decode at h
  split_ifs at h with hhigh hz hccopy hfadd hfmul hsmul <;> cases h
  all_goals
    have hfields := encodeFields_of_fields (not_not.1 hhigh) (not_not.1 hz)
  · rwa [hccopy] at hfields
  · rwa [hfadd] at hfields
  · rwa [hfmul] at hfields
  · rwa [hsmul] at hfields

/-- The decoder and the encoder agree: a datum is a command exactly when it is its encoding (R86). -/
theorem decode_eq_ok_iff {v : Word} {i : Instr} : decode v = .ok i ↔ encode i = v :=
  ⟨encode_of_decode, fun h => h ▸ decode_encode i⟩

/-- The same for the 16 latched bits (R86, R89). -/
theorem decodeLatched_eq_ok_iff {c : BitVec 16} {i : Instr} :
    decodeLatched c = .ok i ↔ (encode i).setWidth 16 = c := by
  refine ⟨fun h => ?_, fun h => h ▸ decodeLatched_setWidth (decode_encode i)⟩
  rw [encode_of_decode h, BitVec.setWidth_setWidth_of_le _ (by decide), BitVec.setWidth_eq]

/-! ### By fields (R85). -/

/-- A datum is illegal exactly when it is no command (R85, R86). -/
theorem exists_error_iff {x : Except IllegalCommand Instr} :
    (∃ why, x = .error why) ↔ ¬ ∃ i, x = .ok i := by
  cases x <;> simp

/-- A datum is a command exactly when its fixed fields are zero and its opcode is assigned (R85). -/
theorem exists_decode_iff (v : Word) : (∃ i, decode v = .ok i) ↔
    fieldHigh v = 0 ∧ fieldZ v = 0 ∧ 1 ≤ (fieldOp v).toNat ∧ (fieldOp v).toNat ≤ 4 := by
  simp only [decode_eq_ok_iff]
  constructor
  · rintro ⟨i, rfl⟩
    cases i <;> simp [encode, fieldOp_encodeFields]
  · rintro ⟨hhigh, hz, hlow, hup⟩
    have hfields := encodeFields_of_fields hhigh hz
    generalize fieldOp v = op at hlow hup hfields
    have hop : op = 1 ∨ op = 2 ∨ op = 3 ∨ op = 4 := by
      clear hfields
      revert op
      decide
    rcases hop with rfl | rfl | rfl | rfl
    · exact ⟨.ccopy _ _ _, hfields⟩
    · exact ⟨.fadd _ _ _, hfields⟩
    · exact ⟨.fmul _ _ _, hfields⟩
    · exact ⟨.smul _ _ _, hfields⟩

/-- The three conditions of R85 on the number a datum is. -/
theorem exists_decode_error_iff (v : Word) : (∃ why, decode v = .error why) ↔
    v.toNat / 2 ^ 16 ≠ 0 ∨ (v.toNat / 2 ^ 12 % 16 = 0 ∨ 5 ≤ v.toNat / 2 ^ 12 % 16) ∨
      v.toNat % 8 ≠ 0 := by
  rw [exists_error_iff, exists_decode_iff, BitVec.toNat_eq, BitVec.toNat_eq, toNat_fieldHigh,
    toNat_fieldZ, toNat_fieldOp]
  simp only [BitVec.ofNat_eq_ofNat, BitVec.toNat_ofNat, Nat.zero_mod]
  omega

/-! ### By mask and match (R83). -/

/-- The mask keeps bits 63:16. -/
@[simp] theorem fieldHigh_and_cmdMask (v : Word) : fieldHigh (v &&& cmdMask) = fieldHigh v := by
  have hmask : cmdMask.extractLsb' 16 48 = BitVec.allOnes 48 := by decide
  rw [fieldHigh, BitVec.extractLsb'_and, hmask, BitVec.and_allOnes, fieldHigh]

/-- The mask keeps bits 2:0. -/
@[simp] theorem fieldZ_and_cmdMask (v : Word) : fieldZ (v &&& cmdMask) = fieldZ v := by
  have hmask : cmdMask.extractLsb' 0 3 = BitVec.allOnes 3 := by decide
  rw [fieldZ, BitVec.extractLsb'_and, hmask, BitVec.and_allOnes, fieldZ]

/-- The mask keeps the opcode. -/
@[simp] theorem fieldOp_and_cmdMask (v : Word) : fieldOp (v &&& cmdMask) = fieldOp v := by
  have hmask : cmdMask.extractLsb' 12 4 = BitVec.allOnes 4 := by decide
  rw [fieldOp, BitVec.extractLsb'_and, hmask, BitVec.and_allOnes, fieldOp]

/-- Masking gives the match word of an opcode exactly when the datum is that opcode with some
operands: a datum that masks as `encodeFields op 0 0 0` does has the same fixed fields (R83). -/
theorem exists_encodeFields_iff (op : BitVec 4) (v : Word) :
    (∃ rd ra rb, encodeFields op rd ra rb = v) ↔ v &&& cmdMask = op.setWidth 64 <<< 12 := by
  constructor
  · rintro ⟨rd, ra, rb, rfl⟩
    exact encodeFields_and_mask op rd ra rb
  · intro h
    have hsame := h.trans (encodeFields_and_mask op 0 0 0).symm
    have hhigh : fieldHigh v = 0 := by simpa using congrArg fieldHigh hsame
    have hz : fieldZ v = 0 := by simpa using congrArg fieldZ hsame
    have hop : fieldOp v = op := by
      simpa [fieldOp_encodeFields] using congrArg fieldOp hsame
    exact hop ▸ ⟨_, _, _, encodeFields_of_fields hhigh hz⟩

/-- On a latched word the 64-bit and the 16-bit mask test are one (R83, R89). -/
theorem setWidth_and_cmdMask_eq_iff (c m : BitVec 16) :
    c.setWidth 64 &&& cmdMask = m.setWidth 64 ↔ c &&& 0xF007 = m := by
  have hmask : c.setWidth 64 &&& cmdMask = (c &&& 0xF007).setWidth 64 := by
    calc c.setWidth 64 &&& cmdMask
        = (c &&& BitVec.allOnes 16).setWidth 64 &&& cmdMask := by rw [BitVec.and_allOnes]
      _ = c.setWidth 64 &&& ((BitVec.allOnes 16).setWidth 64 &&& cmdMask) := by
          rw [BitVec.setWidth_and, BitVec.and_assoc]
      _ = c.setWidth 64 &&& BitVec.setWidth 64 0xF007#16 := rfl
      _ = (c &&& 0xF007).setWidth 64 := BitVec.setWidth_and.symm
  rw [hmask]
  refine ⟨fun h => ?_, fun h => h ▸ rfl⟩
  have hlow := congrArg (BitVec.setWidth 16) h
  rwa [BitVec.setWidth_setWidth_of_le _ (by decide), BitVec.setWidth_setWidth_of_le _ (by decide),
    BitVec.setWidth_eq, BitVec.setWidth_eq] at hlow

/-! ### By count (R84). -/

/-- The commands as opcode and operands: four opcodes, three register numbers each (R83). -/
def instrEquiv : Instr ≃ (Fin 8 × Fin 8 × Fin 8) × Fin 4 where
  toFun
    | .ccopy rd ra kc => ((rd, ra, kc), 0)
    | .fadd rd ra rb => ((rd, ra, rb), 1)
    | .fmul rd ra rb => ((rd, ra, rb), 2)
    | .smul rd ra rb => ((rd, ra, rb), 3)
  invFun
    | ((rd, ra, rb), 0) => .ccopy rd ra rb
    | ((rd, ra, rb), 1) => .fadd rd ra rb
    | ((rd, ra, rb), 2) => .fmul rd ra rb
    | ((rd, ra, rb), 3) => .smul rd ra rb
  left_inv i := by cases i <;> rfl
  right_inv := by
    rintro ⟨⟨rd, ra, rb⟩, op⟩
    fin_cases op <;> rfl

/-- There are 2048 commands (R84). -/
theorem card_instr : Nat.card Instr = 2048 := by
  rw [Nat.card_congr instrEquiv]
  simp

/-- Two commands of one latched word are one command (R86). -/
theorem latchedWord_injective : Function.Injective fun i : Instr => (encode i).setWidth 16 := by
  intro i j h
  have hi := decodeLatched_setWidth (decode_encode i)
  rw [show (encode i).setWidth 16 = (encode j).setWidth 16 from h,
    decodeLatched_setWidth (decode_encode j)] at hi
  exact (Except.ok.inj hi).symm

/-- As many words decode to a command of a set as the set has members (R84). -/
theorem ncard_decodeLatched_mem (S : Set Instr) :
    Set.ncard {c : BitVec 16 | ∃ i ∈ S, decodeLatched c = .ok i} = S.ncard := by
  rw [← Set.ncard_image_of_injective S latchedWord_injective]
  congr 1
  ext c
  exact exists_congr fun i => and_congr_right fun _ => decodeLatched_eq_ok_iff

/-- Each opcode has 512 command words (R84). -/
theorem ncard_decodeLatched_row (op : Fin 4) :
    Set.ncard {c : BitVec 16 | ∃ rd ra rb,
      decodeLatched c = .ok (instrEquiv.symm ((rd, ra, rb), op))} = 512 := by
  have hinj : Function.Injective fun p => instrEquiv.symm (p, op) :=
    instrEquiv.symm.injective.comp (Prod.mk_left_injective op)
  have hcount := ncard_decodeLatched_mem (Set.range fun p => instrEquiv.symm (p, op))
  rw [← Set.image_univ, Set.ncard_image_of_injective _ hinj, Set.ncard_univ] at hcount
  simpa using hcount

/-- 2048 words are commands (R84). -/
theorem ncard_decodeLatched_ok : Set.ncard {c : BitVec 16 | ∃ i, decodeLatched c = .ok i} = 2048 := by
  have hcount := ncard_decodeLatched_mem Set.univ
  rw [Set.ncard_univ, card_instr] at hcount
  simpa using hcount

/-- The other words of the `2^16` are illegal (R84). -/
theorem ncard_decodeLatched_error :
    Set.ncard {c : BitVec 16 | ∃ why, decodeLatched c = .error why} = 63488 := by
  have hcompl : {c : BitVec 16 | ∃ why, decodeLatched c = .error why} =
      {c : BitVec 16 | ∃ i, decodeLatched c = .ok i}ᶜ := Set.ext fun _ => exists_error_iff
  have hwords : Nat.card (BitVec 16) = 2 ^ 16 :=
    (Nat.card_congr BitVec.equivFin.toEquiv).trans (Nat.card_fin _)
  rw [hcompl, Set.ncard_compl, ncard_decodeLatched_ok, hwords]
  rfl

end Sys2Proof
end

section
/-! SUPPORT. The invariant along the core's turn and a window write, the write to `CMD`, and the
lines of a host script that load and read an element (30_encoding.md R88, R89, R91). -/

namespace Sys2Proof.Machine

open Sys2Proof.Safety

/-! ### The invariant (R89, R143). -/

/-- With `BUSY = 0` every state is sound. -/
theorem sound_of_idle {s : State} (h : s.busy = false) : Sound s :=
  fun hbusy => absurd (hbusy.symm.trans h) Bool.noConfusion

/-- The core's turn keeps the invariant: it ends with `BUSY = 0` or changes nothing (R89). -/
theorem sound_of_coreTurn {s t : State} (hs : Sound s) (h : coreTurn s = .next t) : Sound t := by
  rcases coreTurn_cases h with ⟨-, i, u, -, -, rfl⟩ | ⟨-, rfl⟩
  · exact sound_of_idle rfl
  · exact hs

/-- Issue with `BUSY = 0` leaves a sound state: it latches only a command, and only while `ILL = 0`
(R88, R143). -/
theorem sound_issue {s : State} (hbusy : s.busy = false) (v : Word) : Sound (issue s v) := by
  rcases issue_cases s v with ⟨-, h⟩ | ⟨-, -, h⟩ | ⟨hill, ⟨i, hi⟩, h⟩ <;> rw [h]
  · exact sound_of_idle hbusy
  · exact sound_of_idle hbusy
  · exact fun _ => ⟨⟨i, decodeLatched_setWidth hi⟩, hill⟩

/-- A window write that the interlock does not hold keeps the invariant (R58, R59). -/
theorem sound_winWrite {s : State} {off : Nat} (hs : Sound s) (hh : held s off = false) (v : Word) :
    Sound (winWrite s off v) := by
  rcases winWrite_cases s off v with ⟨r, i, -, h⟩ | ⟨c, -, h⟩ | ⟨hw, h⟩ | h <;> rw [h]
  · exact hs
  · exact hs
  · have hoff := windowWord_eq_cmd hw
    exact sound_issue (idle_of_not_held hh (by omega)) v
  · exact hs

/-! ### The core's turn with nothing pending (R89). -/

/-- With nothing pending the turn is the core's (R10). -/
theorem step_of_no_port {s : State} (hp : s.port = []) : step s = coreTurn s := by
  rw [step, turn, hp]

/-- With `BUSY = 0` the core's turn changes nothing (R153; log entry 5). -/
theorem coreTurn_of_idle {s : State} (h : s.busy = false) : coreTurn s = .next s := by
  simp [coreTurn, h]

/-! ### The write to `CMD` (R88). -/

/-- With `BUSY = 0` a write to `CMD` is one issue (R59, R88). -/
theorem step_cmd_write_issues {s : State} {v : Word} {rest : List HostStep} (hbusy : s.busy = false)
    (hp : s.port = .write 64 0x240 v :: rest) : step s = .next (issue (withPort s rest) v) :=
  step_write hp (by decide) (by decide) (held_of_idle hbusy _)

/-- While `ILL = 1` a datum is discarded (R88, R143). -/
theorem issue_of_ill {s : State} (hill : s.ill = true) (v : Word) : issue s v = s := by
  simp [issue, hill]

/-- An illegal datum raises `Illegal` while `ILL = 0` (R85, R88, R141). -/
theorem issue_of_illegal {s : State} {v : Word} (hill : s.ill = false)
    (hv : ∃ why, decode v = .error why) : issue s v = raiseIllegal s := by
  obtain ⟨why, hwhy⟩ := hv
  simp [issue, hill, hwhy]

/-! ### The lines of a host script (R91). -/

/-- The later of two writes of one element register stays (R13). -/
@[simp] theorem writeElem_writeElem_same (s : State) (r : EReg) (x y : Elem) :
    writeElem (writeElem s r x) r y = writeElem s r y := by
  simp [writeElem]

/-- Host writes of limbs of one register with `BUSY = 0` set those limbs, in order, and change nothing
else of the block (R59). -/
theorem run_limb_writes (r : EReg) (f : Fin 6 → Word) (rest : List HostStep) (is : List (Fin 6))
    (s : State) (hbusy : s.busy = false)
    (hp : s.port = is.map (fun i => .write 64 (0x40 * r.val + 8 * i.val) (f i)) ++ rest) :
    Host.Core.run core is.length s = .next (withPort (writeElem s r
      (is.foldl (fun (x : Elem) (i : Fin 6) => x.set i.val (f i)) (readElem s r))) rest) := by
  induction is generalizing s with
  | nil =>
    subst hp
    rw [List.foldl_nil, writeElem_readElem_self]
    rfl
  | cons i is ih =>
    have hstep := step_write hp (by omega) (by omega) (held_of_idle hbusy _)
    rw [hostWrite, winWrite_limb] at hstep
    refine (run_next hstep _).trans ((ih _ ?_ ?_).trans ?_)
    · exact hbusy
    · rfl
    · rw [List.foldl_cons, writeLimb, readElem_writeElem_same, writeElem_writeElem_same]
      rfl

/-- Host reads of limbs of one register with `BUSY = 0` answer those limbs, in order, and change no
state of the block (R57). -/
theorem run_limb_reads (r : EReg) (rest : List HostStep) (is : List (Fin 6)) (s : State)
    (hbusy : s.busy = false)
    (hp : s.port = is.map (fun i => .read 64 (0x40 * r.val + 8 * i.val)) ++ rest) :
    Host.Core.run core is.length s =
      .next { s with port := rest, answers := (is.map (readLimb s r)).reverse ++ s.answers } := by
  induction is generalizing s with
  | nil => subst hp; rfl
  | cons i is ih =>
    have hstep := step_read hp (by omega) (by omega) (held_of_idle hbusy _)
    refine (run_next hstep _).trans ((ih _ ?_ ?_).trans ?_)
    · exact hbusy
    · rfl
    · rw [hostRead_answers, winRead_limb, List.map_cons, List.reverse_cons, List.append_assoc]
      rfl

/-- All six limbs set are the whole element (R13). -/
theorem foldl_set_limbs (x y : Elem) :
    (List.finRange 6).foldl (fun (z : Elem) (i : Fin 6) => z.set i.val x[i]) y = x := by
  apply elem_ext <;> simp [List.finRange_succ]

/-- The six limbs, limb 0 first, are the element's list (R91). -/
theorem map_readLimb_finRange (s : State) (r : EReg) :
    (List.finRange 6).map (readLimb s r) = (readElem s r).toList := by
  apply List.ext_getElem <;> simp [readLimb]

end Sys2Proof.Machine
end

section
/-! The statements of 30_encoding.md. -/

namespace Sys2Proof.Machine

open Sys2Proof.Safety

/-- Settles O54: only a write to `CMD` latches, and it finds `BUSY = 0`, since a held one is not
performed. -/
theorem soundKeptByEveryStep : Obligations.SoundKeptByEveryStep := by
  intro s t hs h
  rcases step_cases h with ⟨-, hcore⟩ | ⟨rest, -, hcore⟩ | ⟨rest, -, rfl⟩ |
    ⟨off, rest, -, -, -, -, rfl⟩ | ⟨off, v, rest, -, -, -, hh, rfl⟩
  · exact sound_of_coreTurn hs hcore
  · exact sound_of_coreTurn (s := withPort s rest) hs hcore
  · exact sound_of_idle rfl
  · exact hs
  · exact sound_winWrite (s := withPort s rest) hs hh v

/-- Settles O2: by the encoder, each row is the set of the data with the row's opcode. -/
theorem opcodeMapByMaskAndMatch : Obligations.OpcodeMapByMaskAndMatch := by
  refine ⟨fun v => ?_, fun c => ?_⟩
  · simp only [decode_eq_ok_iff, encode]
    exact ⟨exists_encodeFields_iff 1 v, exists_encodeFields_iff 2 v, exists_encodeFields_iff 3 v,
      exists_encodeFields_iff 4 v⟩
  · have row (op : BitVec 4) := exists_encodeFields_iff op (c.setWidth 64)
    simp only [decodeLatched, decode_eq_ok_iff, encode]
    exact ⟨(row 1).trans (setWidth_and_cmdMask_eq_iff c 0x1000),
      (row 2).trans (setWidth_and_cmdMask_eq_iff c 0x2000),
      (row 3).trans (setWidth_and_cmdMask_eq_iff c 0x3000),
      (row 4).trans (setWidth_and_cmdMask_eq_iff c 0x4000)⟩

/-- Settles O3: the three conditions are those under which the datum decodes to no command. -/
theorem illegalDataAndTheirOneEffect : Obligations.IllegalDataAndTheirOneEffect :=
  ⟨exists_decode_error_iff,
    fun _ v hill hbad => issue_of_illegal hill ((exists_decode_error_iff v).2 hbad)⟩

/-- Settles O4: the words that decode are as many as the commands, and the others are the rest. -/
theorem legalWordCount : Obligations.LegalWordCount :=
  ⟨ncard_decodeLatched_row 0, ncard_decodeLatched_row 1, ncard_decodeLatched_row 2,
    ncard_decodeLatched_row 3, ncard_decodeLatched_ok, ncard_decodeLatched_error⟩

/-- Settles O29: the latched word decodes, and a command changes `E` at its destination and the draw
counter alone. -/
theorem completeAlwaysSucceeds : Obligations.CompleteAlwaysSucceeds := by
  refine ⟨fun s hs hbusy hp => ?_, fun s hbusy hp => ?_⟩
  · obtain ⟨⟨i, hi⟩, -⟩ := hs hbusy
    obtain ⟨u, hu⟩ := exec_total i s
    have hother (r) : r ≠ destOf i → readElem u r = readElem s r := readElem_exec_other hu
    refine ⟨i, clearBusy u, hi, ?_, rfl, hother, ?_⟩
    · rw [step_of_no_port hp, coreTurn_of_latched hbusy hi, hu, finish_next]
    · rw [exec_frame hu]
      exact ⟨rfl, rfl, rfl, hp, rfl⟩
  · rw [step_of_no_port hp, coreTurn_of_idle hbusy]

/-- Settles O30: the step is one issue, with its three arms. -/
theorem issueByCmdWrite : Obligations.IssueByCmdWrite := by
  intro s v rest hbusy hp
  rw [step_cmd_write_issues hbusy hp]
  refine ⟨fun hill => ?_, fun hill hv => ?_, fun hill i hi => ?_⟩
  · exact congrArg _ (issue_of_ill (s := withPort s rest) hill v)
  · have hbad := exists_error_iff.2 (not_exists.2 hv)
    exact congrArg _ (issue_of_illegal (s := withPort s rest) hill hbad)
  · rw [issue_of_decode (s := withPort s rest) hill hi, BitVec.setWidth_eq_extractLsb' (by decide)]
    rfl

/-- Settles O44: six limb writes set every limb, and six limb reads answer every limb. -/
theorem scriptLoadsAndReadsElement : Obligations.ScriptLoadsAndReadsElement := by
  refine ⟨fun s r v rest hbusy hv hp => ?_, fun s r rest hbusy hp => ?_⟩
  · have hrun := run_limb_writes r (fun i => (elemLimbs v)[i]) rest (List.finRange 6) s hbusy hp
    rw [foldl_set_limbs] at hrun
    exact ⟨withPort (writeVal s r v) rest, hrun, sourceVal_writeVal_same s r hv,
      fun r' hr => readElem_writeVal_other s v hr, rfl, hbusy, rfl, rfl, rfl, rfl, rfl⟩
  · rw [← map_readLimb_finRange]
    exact run_limb_reads r rest (List.finRange 6) s hbusy hp

/-- Settles O5: each word is compared with its command's encoding, which decides both ways. -/
theorem encodingExamples : Obligations.EncodingExamples := by
  have bothWays {v : Word} {i : Instr} (h : encode i = v) : encode i = v ∧ decode v = .ok i :=
    ⟨h, decode_eq_ok_iff.2 h⟩
  exact ⟨bothWays (by decide), bothWays (by decide), bothWays (by decide), bothWays (by decide),
    bothWays (by decide), bothWays (by decide), ⟨.opcode, rfl⟩, ⟨.zField, rfl⟩, ⟨.opcode, rfl⟩,
    ⟨.highBits, rfl⟩⟩

/-- Settles O28: each of the four heads of the port gives the core its turn. -/
theorem stepRunsLatchedCommand : Obligations.StepRunsLatchedCommand := by
  intro s i hbusy hi
  have hturn := coreTurn_of_latched hbusy hi
  refine ⟨fun hp => ?_, fun rest hp => ?_, fun off rest ha ho hp => ?_,
    fun off v rest ha ho hp => ?_, fun u t ht => ?_⟩
  · rw [step_of_no_port hp, hturn]
  · exact step_wait_of_latched hbusy hi hp
  · rw [step_of_held (v := 0) (.inl hp) ha hbusy ho, hturn]
  · rw [step_of_held (.inr hp) ha hbusy ho, hturn]
  · rw [ht]
    rfl

end Sys2Proof.Machine
end

section
/-! SUPPORT. What `CCOPY` does under each of the two condition words, and the mask form of its
select limb by limb (40_conditional_copy.md R100, R101, R105). -/

namespace Sys2Proof.Machine

/-! ### The two conditions (R100, R101). -/

/-- `CCOPY` under `True64` writes its source into its destination (R100). -/
theorem exec_ccopy_of_true {s : State} {kc : KReg} (hc : readCond s kc = true64) (rd ra : EReg) :
    exec (.ccopy rd ra kc) s = .next (writeElem s rd (readElem s ra)) := by
  have hclass : sourceCond s kc = .isTrue := by rw [sourceCond, hc, condClass, if_pos rfl]
  simp only [exec, execCcopy, hclass]

/-- `CCOPY` under `False64` changes nothing (R100). -/
theorem exec_ccopy_of_false {s : State} {kc : KReg} (hc : readCond s kc = false64) (rd ra : EReg) :
    exec (.ccopy rd ra kc) s = .next s := by
  have hclass : sourceCond s kc = .isFalse := by
    rw [sourceCond, hc, condClass, if_neg (by decide), if_pos rfl]
  simp only [exec, execCcopy, hclass]

/-- After a `CCOPY` under `True64` the destination holds the source's old value (R100). -/
theorem readElem_dest_of_ccopy_true {s t : State} {rd ra : EReg} {kc : KReg}
    (h : exec (.ccopy rd ra kc) s = .next t) (hc : readCond s kc = true64) :
    readElem t rd = readElem s ra := by
  cases h.symm.trans (exec_ccopy_of_true hc rd ra)
  exact readElem_writeElem_same s rd _

/-- The state after a `CCOPY` under `False64` is the state before it (R100). -/
theorem eq_of_ccopy_false {s t : State} {rd ra : EReg} {kc : KReg}
    (h : exec (.ccopy rd ra kc) s = .next t) (hc : readCond s kc = false64) : t = s :=
  Host.Outcome.next.inj (h.symm.trans (exec_ccopy_of_false hc rd ra))

/-- No command writes a condition register (R25). -/
theorem exec_k {i : Instr} {s t : State} (h : exec i s = .next t) : t.k = s.k := by
  rw [exec_frame h]

/-- A command leaves every condition word as it was (R25). -/
theorem readCond_exec {i : Instr} {s t : State} (h : exec i s = .next t) (c : KReg) :
    readCond t c = readCond s c :=
  readCond_congr (exec_k h) c

/-! ### The mask form (R105). -/

/-- A limb selected under all ones is the source's. -/
@[simp] theorem maskSelect_true64 (s d : Word) : maskSelect true64 s d = s := by
  have hones : true64 = BitVec.allOnes 64 := by decide
  rw [maskSelect, hones, BitVec.allOnes_and, BitVec.not_allOnes, BitVec.zero_and, BitVec.or_zero]

/-- A limb selected under 0 is the destination's. -/
@[simp] theorem maskSelect_false64 (s d : Word) : maskSelect false64 s d = d := by
  have hzero : false64 = 0#64 := rfl
  rw [maskSelect, hzero, BitVec.zero_and, BitVec.not_zero, BitVec.allOnes_and, BitVec.zero_or]

end Sys2Proof.Machine
end

section
/-! The statements of 40_conditional_copy.md. -/

namespace Sys2Proof.Machine

/-- Settles O6: the next state is one write of the source's element, or the state itself. -/
theorem ccopyCopiesEveryPattern : Obligations.CcopyCopiesEveryPattern := by
  refine fun s rd ra kc => ⟨fun hc => ?_, fun hc => ?_⟩
  · have hexec := exec_ccopy_of_true hc rd ra
    have hdest := readElem_dest_of_ccopy_true hexec hc
    have hval : sourceVal _ rd = sourceVal s ra := congrArg elemVal hdest
    exact ⟨_, hexec, fun i => congrArg (·[i]) hdest, hval.trans_lt, hval.trans_lt,
      fun r hr => readElem_writeElem_other s _ hr, rfl, rfl, rfl, rfl, rfl, rfl, rfl⟩
  · exact ⟨s, exec_ccopy_of_false hc rd ra, fun _ _ => rfl, id, id,
      rfl, rfl, rfl, rfl, rfl, rfl, rfl⟩

/-- Settles O7: the frame is that of every command, and the two conditions fix the destination. -/
theorem ccopyConditionWords : Obligations.CcopyConditionWords := by
  intro s rd ra kc
  obtain ⟨t, ht⟩ := exec_total (.ccopy rd ra kc) s
  refine ⟨t, ht, fun hc => ?_, readElem_dest_of_ccopy_true ht,
    fun r hr => readElem_exec_other ht hr, ?_⟩
  · rw [eq_of_ccopy_false ht hc]
  · rw [exec_frame ht]
    exact ⟨rfl, rfl, rfl, rfl, rfl, rfl⟩

/-- Settles O8: with one register as source and destination, either condition gives that register's
own value. -/
theorem ccopySameRegister : Obligations.CcopySameRegister := by
  intro s d kc
  obtain ⟨t, ht, hfalse, htrue, hframe⟩ := ccopyConditionWords s d d kc
  exact ⟨t, ht, fun hc => hc.elim htrue hfalse, hframe⟩

/-- Settles O10: the scratch register holds the old `E[x]` until the last copy, so `E[y]` gets it
even where `x = y`; under the false word only the scratch register is written. -/
theorem conditionalSwap : Obligations.ConditionalSwap := by
  intro s x y w ktrue kc hwx hwy hktrue _
  obtain ⟨t1, h1⟩ := exec_total (.ccopy w x ktrue) s
  obtain ⟨t2, h2⟩ := exec_total (.ccopy x y kc) t1
  obtain ⟨t3, h3⟩ := exec_total (.ccopy y w kc) t2
  have hc1 : readCond t1 kc = readCond s kc := readCond_exec h1 kc
  have hc2 : readCond t2 kc = readCond s kc := (readCond_exec h2 kc).trans hc1
  have other1 {r} : r ≠ w → readElem t1 r = readElem s r := readElem_exec_other h1
  have other2 {r} : r ≠ x → readElem t2 r = readElem t1 r := readElem_exec_other h2
  have other3 {r} : r ≠ y → readElem t3 r = readElem t2 r := readElem_exec_other h3
  refine ⟨t1, t2, t3, h1, h2, h3, fun hc => ?_, fun hc => ?_, fun r hrx hry hrw => ?_, ?_⟩
  · have hy : readElem t3 y = readElem s x := calc
      readElem t3 y = readElem t2 w := readElem_dest_of_ccopy_true h3 (hc2.trans hc)
      _ = readElem t1 w := other2 hwx
      _ = readElem s x := readElem_dest_of_ccopy_true h1 hktrue
    refine ⟨?_, hy⟩
    by_cases hxy : x = y
    · subst hxy
      exact hy
    · calc
        readElem t3 x = readElem t2 x := other3 hxy
        _ = readElem t1 y := readElem_dest_of_ccopy_true h2 (hc1.trans hc)
        _ = readElem s y := other1 hwy.symm
  · have h31 : t3 = t1 :=
      (eq_of_ccopy_false h3 (hc2.trans hc)).trans (eq_of_ccopy_false h2 (hc1.trans hc))
    rw [h31]
    exact ⟨other1 hwx.symm, other1 hwy.symm⟩
  · exact (other3 hry).trans ((other2 hrx).trans (other1 hrw))
  · exact (exec_k h3).trans ((exec_k h2).trans (exec_k h1))

/-- Settles O9: each of the six limbs is selected under the one condition word. -/
theorem maskSelectAgreesOnConditions : Obligations.MaskSelectAgreesOnConditions := by
  intro src dst
  constructor
  · apply elem_ext <;> exact maskSelect_true64 _ _
  · apply elem_ext <;> exact maskSelect_false64 _ _

end Sys2Proof.Machine
end

section
/-! SUPPORT. Which pairs of patterns keep the raw sum, and the value of the sum on either side of `Q`;
what `FADD` leaves in its destination (41_field_add.md R110 to R113). -/

namespace Sys2Proof.Machine

/-! ### The sum as a number (R110). -/

/-- `Q` has 384 bits (R27). -/
theorem primeQ_lt : primeQ < 2 ^ 384 := moduli_lt.2.1

/-- The raw sum of a pair that leaves no carry is the sum (R110). -/
theorem rawSum_of_lt {a b : Nat} (h : a + b < 2 ^ 384) : rawSum a b = a + b := Nat.mod_eq_of_lt h

/-- The raw sum of a pair that leaves a carry is the sum less the carry (R112). -/
theorem rawSum_of_ge {a b : Nat} (ha : a < 2 ^ 384) (hb : b < 2 ^ 384) (h : 2 ^ 384 ≤ a + b) :
    rawSum a b = a + b - 2 ^ 384 := by
  rw [rawSum]
  omega

/-- `FADD` keeps the raw sum exactly when the sum itself is below `Q` (R112, path 1). -/
theorem keeps_rawSum_iff {a b : Nat} (ha : a < 2 ^ 384) (hb : b < 2 ^ 384) :
    (carryOut a b = false ∧ isBelow (rawSum a b) primeQ = true) ↔ a + b < primeQ := by
  have hQ := primeQ_lt
  rw [carryOut_false_iff ha hb, isBelow_iff]
  constructor
  · rintro ⟨hcarry, hbelow⟩
    rwa [rawSum_of_lt hcarry] at hbelow
  · intro h
    have hcarry := h.trans hQ
    exact ⟨hcarry, (rawSum_of_lt hcarry).trans_lt h⟩

/-- From `Q` on, subtracting `Q` from the raw sum loses the carry and the borrow alike (R111). -/
theorem wrapSub_rawSum {a b : Nat} (h : primeQ ≤ a + b) :
    wrapSub (rawSum a b) primeQ = (a + b - primeQ) % 2 ^ 384 := by
  have hQ := primeQ_lt
  rw [wrapSub, rawSum]
  omega

/-- A sum below `Q` is the result (R112, path 1). -/
theorem fieldSum_of_lt {a b : Nat} (h : a + b < primeQ) : fieldSum a b = a + b := by
  have hQ := primeQ_lt
  rw [fieldSum, if_pos ((keeps_rawSum_iff (by omega) (by omega)).2 h), rawSum_of_lt (h.trans hQ)]

/-- From `Q` on, `Q` is subtracted once modulo `2^384` (R113). -/
theorem fieldSum_of_ge {a b : Nat} (ha : a < 2 ^ 384) (hb : b < 2 ^ 384) (h : primeQ ≤ a + b) :
    fieldSum a b = (a + b - primeQ) % 2 ^ 384 := by
  rw [fieldSum, if_neg (mt (keeps_rawSum_iff ha hb).1 h.not_gt), wrapSub_rawSum h]

/-- From `Q` to `2Q - 1`, whatever the carry, `Q` is subtracted once (R112, paths 2 and 3). -/
theorem fieldSum_of_ge_of_lt {a b : Nat} (ha : a < 2 ^ 384) (hb : b < 2 ^ 384) (h : primeQ ≤ a + b)
    (h2 : a + b < 2 * primeQ) : fieldSum a b = a + b - primeQ := by
  have hQ := primeQ_lt
  rw [fieldSum_of_ge ha hb h, Nat.mod_eq_of_lt (by omega)]

/-- Below `2Q` the result is the sum modulo `Q`, though a source be out of range (R111, R113). -/
theorem fieldSum_eq_mod {a b : Nat} (ha : a < 2 ^ 384) (hb : b < 2 ^ 384)
    (h2 : a + b < 2 * primeQ) : fieldSum a b = (a + b) % primeQ := by
  rcases lt_or_ge (a + b) primeQ with h | h
  · rw [fieldSum_of_lt h, Nat.mod_eq_of_lt h]
  · rw [fieldSum_of_ge_of_lt ha hb h h2, Nat.mod_eq_sub_mod h, Nat.mod_eq_of_lt (by omega)]

/-- The sum does not depend on the order of its sources (R112). -/
theorem fieldSum_comm (a b : Nat) : fieldSum a b = fieldSum b a := by
  have hcarry : carryOut a b = carryOut b a := by rw [carryOut, carryOut, Nat.add_comm]
  have hraw : rawSum a b = rawSum b a := by rw [rawSum, rawSum, Nat.add_comm]
  rw [fieldSum, hcarry, hraw, fieldSum]

/-! ### The command (R110). -/

/-- `FADD` leaves in its destination the sum of the sources' old values, whichever registers
coincide (R110, R115). -/
theorem sourceVal_dest_of_fadd {s t : State} {rd ra rb : EReg}
    (h : exec (.fadd rd ra rb) s = .next t) :
    sourceVal t rd = fieldSum (sourceVal s ra) (sourceVal s rb) := by
  cases h
  exact sourceVal_writeVal_same s rd (fieldSum_lt _ _)

/-- `FADD` of sources that sum to less than `2Q` leaves the sum modulo `Q` (R111, R113). -/
theorem sourceVal_dest_of_fadd_of_lt {s t : State} {rd ra rb : EReg}
    (h : exec (.fadd rd ra rb) s = .next t)
    (h2 : sourceVal s ra + sourceVal s rb < 2 * primeQ) :
    sourceVal t rd = (sourceVal s ra + sourceVal s rb) % primeQ := by
  rw [sourceVal_dest_of_fadd h, fieldSum_eq_mod (sourceVal_lt s ra) (sourceVal_lt s rb) h2]

/-- `FADD` of sources that sum to `Q` or more leaves the sum less `Q` modulo `2^384` (R113). -/
theorem sourceVal_dest_of_fadd_of_ge {s t : State} {rd ra rb : EReg}
    (h : exec (.fadd rd ra rb) s = .next t)
    (hge : primeQ ≤ sourceVal s ra + sourceVal s rb) :
    sourceVal t rd = (sourceVal s ra + sourceVal s rb - primeQ) % 2 ^ 384 := by
  rw [sourceVal_dest_of_fadd h, fieldSum_of_ge (sourceVal_lt s ra) (sourceVal_lt s rb) hge]

/-- `FADD` of one in-range register with itself doubles it modulo `Q` (R115). -/
theorem fadd_doubles {s : State} {a : EReg} (ha : InQ (sourceVal s a)) (d : EReg) :
    ∃ t, exec (.fadd d a a) s = .next t ∧ sourceVal t d = 2 * sourceVal s a % primeQ := by
  obtain ⟨t, ht⟩ := exec_total (.fadd d a a) s
  refine ⟨t, ht, ?_⟩
  have h2 : sourceVal s a + sourceVal s a < 2 * primeQ := by omega
  rw [sourceVal_dest_of_fadd_of_lt ht h2, Nat.two_mul]

end Sys2Proof.Machine
end

section
/-! SUPPORT. The limb-serial primitives as numbers: `AddC` is the raw sum and its carry, `SubB` the
wrapping difference and its borrow, `Less` the comparison (41_field_add.md R116). A subtraction is read
as the addition that undoes it, so one fact about a rippling carry serves both. -/

namespace Sys2Proof.Machine

/-! ### One limb (R116). -/

/-- The sum limb with its carry is the sum of the two limbs and the carry before (R116). -/
theorem toNat_sumLimb (x y : Word) (c : Nat) :
    (sumLimb x y c).toNat + sumCarry x y c * 2 ^ 64 = x.toNat + y.toNat + c := by
  rw [sumLimb, sumCarry, BitVec.toNat_ofNat]
  exact Nat.mod_add_div' _ _

/-- From a carry of at most 1 comes a carry of at most 1 (R116). -/
theorem sumCarry_le {x y : Word} {c : Nat} (hc : c ≤ 1) : sumCarry x y c ≤ 1 := by
  have hx := x.isLt
  have hy := y.isLt
  rw [sumCarry]
  omega

/-- A borrow is at most 1 (R116). -/
theorem diffBorrow_le (x y : Word) (b : Nat) : diffBorrow x y b ≤ 1 := by
  rw [diffBorrow]
  split
  · exact le_rfl
  · exact Nat.zero_le 1

/-- The difference limb, the subtrahend and the borrow before give back the minuend with the borrow
(R116). -/
theorem toNat_diffLimb {x y : Word} {b : Nat} (hb : b ≤ 1) :
    x.toNat + diffBorrow x y b * 2 ^ 64 = (diffLimb x y b).toNat + y.toNat + b := by
  have hx := x.isLt
  have hy := y.isLt
  rw [diffLimb, diffBorrow, BitVec.toNat_ofNat]
  split
  · omega
  · omega

/-! ### The chains of carries and borrows (R116). -/

/-- `c_i` of `AddC` (R116): the carry into limb `i`. -/
def carryChain (x y : Elem) : Nat → Nat
  | 0 => 0
  | i + 1 => if h : i < 6 then sumCarry x[i] y[i] (carryChain x y i) else 0

/-- The borrow of `SubB` into limb `i` (R116). -/
def borrowChain (x y : Elem) : Nat → Nat
  | 0 => 0
  | i + 1 => if h : i < 6 then diffBorrow x[i] y[i] (borrowChain x y i) else 0

theorem carryChain_succ (x y : Elem) (i : Fin 6) :
    carryChain x y (i.val + 1) = sumCarry x[i] y[i] (carryChain x y i.val) := dif_pos i.isLt

theorem borrowChain_succ (x y : Elem) (i : Fin 6) :
    borrowChain x y (i.val + 1) = diffBorrow x[i] y[i] (borrowChain x y i.val) := dif_pos i.isLt

/-- Limb `i` of `AddC` is the sum limb under the carry into it (R116). -/
theorem addLimbs_limb (x y : Elem) (i : Fin 6) :
    (addLimbs x y).1[i] = sumLimb x[i] y[i] (carryChain x y i.val) := by
  fin_cases i <;> simp [addLimbs, carryChain]

/-- Limb `i` of `SubB` is the difference limb under the borrow into it (R116). -/
theorem subLimbs_limb (x y : Elem) (i : Fin 6) :
    (subLimbs x y).1[i] = diffLimb x[i] y[i] (borrowChain x y i.val) := by
  fin_cases i <;> simp [subLimbs, borrowChain]

/-- `cout = c_6` (R116). -/
theorem addLimbs_carry (x y : Elem) : (addLimbs x y).2 = carryChain x y 6 := by
  simp [addLimbs, carryChain]

/-- `bout` is the borrow out of the last limb (R116). -/
theorem subLimbs_borrow (x y : Elem) : (subLimbs x y).2 = borrowChain x y 6 := by
  simp [subLimbs, borrowChain]

theorem carryChain_le (x y : Elem) (i : Nat) : carryChain x y i ≤ 1 := by
  induction i with
  | zero => exact Nat.zero_le 1
  | succ i ih =>
    rw [carryChain]
    split
    · exact sumCarry_le ih
    · exact Nat.zero_le 1

theorem borrowChain_le (x y : Elem) (i : Nat) : borrowChain x y i ≤ 1 := by
  cases i with
  | zero => exact Nat.zero_le 1
  | succ i =>
    rw [borrowChain]
    split
    · exact diffBorrow_le _ _ _
    · exact Nat.zero_le 1

/-! ### Six limbs (R116). -/

/-- Where every limb of `w` with the carry out of it is the two limbs of `u` and `v` with the carry
into it, and no carry comes in, the inner carries cancel: `w` with the last carry is `u + v`. -/
theorem elemVal_of_ripple {u v w : Elem} {c : Nat → Nat} (h0 : c 0 = 0)
    (h : ∀ i : Fin 6, w[i].toNat + c (i.val + 1) * 2 ^ 64 = u[i].toNat + v[i].toNat + c i.val) :
    elemVal w + c 6 * 2 ^ 384 = elemVal u + elemVal v := by
  have l0 : w[0].toNat + c 1 * 2 ^ 64 = u[0].toNat + v[0].toNat + c 0 := h 0
  have l1 : w[1].toNat + c 2 * 2 ^ 64 = u[1].toNat + v[1].toNat + c 1 := h 1
  have l2 : w[2].toNat + c 3 * 2 ^ 64 = u[2].toNat + v[2].toNat + c 2 := h 2
  have l3 : w[3].toNat + c 4 * 2 ^ 64 = u[3].toNat + v[3].toNat + c 3 := h 3
  have l4 : w[4].toNat + c 5 * 2 ^ 64 = u[4].toNat + v[4].toNat + c 4 := h 4
  have l5 : w[5].toNat + c 6 * 2 ^ 64 = u[5].toNat + v[5].toNat + c 5 := h 5
  simp only [elemVal]
  omega

/-- `AddC`: `val(z) + cout * 2^384 = val(x) + val(y)` (R116). -/
theorem elemVal_addLimbs (x y : Elem) :
    elemVal (addLimbs x y).1 + (addLimbs x y).2 * 2 ^ 384 = elemVal x + elemVal y := by
  rw [addLimbs_carry]
  refine elemVal_of_ripple (c := carryChain x y) rfl fun i => ?_
  rw [addLimbs_limb, carryChain_succ]
  exact toNat_sumLimb _ _ _

/-- `SubB`: the difference and the subtrahend add up to the minuend, with the borrow as the carry
(R116). -/
theorem elemVal_subLimbs (x y : Elem) :
    elemVal (subLimbs x y).1 + elemVal y = elemVal x + (subLimbs x y).2 * 2 ^ 384 := by
  rw [subLimbs_borrow]
  refine (elemVal_of_ripple (c := borrowChain x y) rfl fun i => ?_).symm
  rw [subLimbs_limb, borrowChain_succ]
  exact toNat_diffLimb (borrowChain_le x y i)

theorem addLimbs_carry_le (x y : Elem) : (addLimbs x y).2 ≤ 1 :=
  (addLimbs_carry x y).trans_le (carryChain_le x y 6)

theorem subLimbs_borrow_le (x y : Elem) : (subLimbs x y).2 ≤ 1 :=
  (subLimbs_borrow x y).trans_le (borrowChain_le x y 6)

/-- `Less` is the comparison of the values, since a borrow goes out exactly there (R116). -/
theorem lessLimbs_iff (x y : Elem) : lessLimbs x y = true ↔ elemVal x < elemVal y := by
  have hval := elemVal_subLimbs x y
  have hborrow := subLimbs_borrow_le x y
  have hz := elemVal_lt (subLimbs x y).1
  have hy := elemVal_lt y
  rw [lessLimbs, beq_iff_eq]
  omega

/-! ### The adder built of them (R110, R116). -/

/-- The limbs of `AddC` are those of the raw sum (R110, R116). -/
theorem elemVal_addLimbs_eq_rawSum (x y : Elem) :
    elemVal (addLimbs x y).1 = rawSum (elemVal x) (elemVal y) := by
  rw [rawSum, ← elemVal_addLimbs, Nat.add_mul_mod_self_right, Nat.mod_eq_of_lt (elemVal_lt _)]

/-- `AddC` leaves no carry exactly where the raw sum has none (R110, R116). -/
theorem addLimbs_carry_eq_zero_iff (x y : Elem) :
    (addLimbs x y).2 = 0 ↔ carryOut (elemVal x) (elemVal y) = false := by
  have hval := elemVal_addLimbs x y
  have hz := elemVal_lt (addLimbs x y).1
  rw [carryOut_false_iff (elemVal_lt x) (elemVal_lt y)]
  omega

/-- The limbs of `SubB` are those of the wrapping difference (R110, R116). -/
theorem elemVal_subLimbs_eq_wrapSub (x y : Elem) :
    elemVal (subLimbs x y).1 = wrapSub (elemVal x) (elemVal y) := by
  have hval := elemVal_subLimbs x y
  have hborrow := subLimbs_borrow_le x y
  have hz := elemVal_lt (subLimbs x y).1
  have hy := elemVal_lt y
  rw [wrapSub]
  omega

/-- The adder built of `AddC`, `Less` and `SubB` has the value of the sum (R110, R116). -/
theorem elemVal_fieldSumLimbs (x y : Elem) :
    elemVal (fieldSumLimbs x y) = fieldSum (elemVal x) (elemVal y) := by
  have hQ : elemVal (elemLimbs primeQ) = primeQ := elemVal_elemLimbs primeQ_lt
  simp only [fieldSumLimbs, fieldSum, apply_ite elemVal, elemVal_subLimbs_eq_wrapSub,
    addLimbs_carry_eq_zero_iff, lessLimbs_iff, isBelow_iff, elemVal_addLimbs_eq_rawSum, hQ]

end Sys2Proof.Machine
end

section
/-! The statements of 41_field_add.md. -/

namespace Sys2Proof.Machine

/-- Settles O11: two sources below `Q` sum to less than `2Q`, and the next state is one write of the
destination. -/
theorem faddContract : Obligations.FaddContract := by
  intro s rd ra rb ha hb
  have h2 : sourceVal s ra + sourceVal s rb < 2 * primeQ := by omega
  have hval := sourceVal_dest_of_fadd_of_lt (rd := rd) rfl h2
  exact ⟨_, rfl, hval, hval.trans_lt (Nat.mod_lt _ (Nat.zero_lt_of_lt ha)),
    fun r hr => readElem_writeVal_other s _ hr, rfl, rfl, rfl, rfl, rfl, rfl, rfl⟩

set_option exponentiation.threshold 400 in
/-- Settles O12: the carry tells whether the sum leaves 384 bits, and without one the raw sum is the
sum, so the path is decided by where the sum lies. -/
theorem faddThreePaths : Obligations.FaddThreePaths := by
  refine ⟨fun a b ha hb => ?_, by decide, by decide, primeQ_lt, by decide, by decide⟩
  have hQ := primeQ_lt
  have ha' := ha.trans hQ
  have hb' := hb.trans hQ
  have h2 : a + b < 2 * primeQ := by omega
  refine ⟨?_, ?_, ?_, fieldSum_of_lt, fun h hcarry => ?_, fun hcarry => ?_,
    fieldSum_of_lt ha, ?_, fieldSum_comm a b, fun hpos => ?_⟩
  · rw [← keeps_rawSum_iff ha' hb', isBelow_iff]
  · rw [carryOut_false_iff ha' hb', and_comm]
    exact and_congr_left fun hcarry => by rw [rawSum_of_lt hcarry]
  · rw [carryOut_iff ha' hb']
    omega
  · rw [fieldSum_of_ge_of_lt ha' hb' h h2]
    omega
  · rw [fieldSum_of_ge_of_lt ha' hb' (hQ.le.trans hcarry) h2, rawSum_of_ge ha' hb' hcarry]
    omega
  · rw [fieldSum_comm]
    exact fieldSum_of_lt hb
  · have hsum : a + (primeQ - a) = primeQ := Nat.add_sub_cancel' ha.le
    rw [fieldSum_of_ge_of_lt ha' (by omega) hsum.ge (by omega), hsum, Nat.sub_self]

/-- Settles O13: below `2Q` the sum is reduced, from `2Q` on it is past `Q` as well, where `Q` is
subtracted once; so are the sums of both examples. -/
theorem faddOutsideContract : Obligations.FaddOutsideContract := by
  have hQ := primeQ_lt
  refine ⟨fun s rd ra rb => ?_, fun s rd ra rb => ?_⟩
  · obtain ⟨t, ht⟩ := exec_total (.fadd rd ra rb) s
    refine ⟨t, ht, sourceVal_dest_of_fadd_of_lt ht,
      fun h => sourceVal_dest_of_fadd_of_ge ht (by omega), ?_⟩
    rw [exec_frame ht]
    exact ⟨rfl, rfl⟩
  · obtain ⟨t, ht⟩ := exec_total (.fadd rd ra rb) s
    refine ⟨fun ha hb => ⟨t, ht, ?_⟩, fun ha hb => ⟨t, ht, ?_⟩⟩
    · rw [sourceVal_dest_of_fadd_of_ge ht (by omega), ha, hb]
      omega
    · rw [sourceVal_dest_of_fadd_of_ge ht (by omega), ha, hb, Nat.add_sub_cancel,
        Nat.mod_eq_of_lt hQ]

/-- Settles O14: the selector is 1 exactly where the sum is below `Q`, since from `Q` on there is
a carry or the subtraction leaves no borrow. -/
theorem faddSelectFormAgrees : Obligations.FaddSelectFormAgrees := by
  have hQ := primeQ_lt
  intro a b ha hb
  rcases lt_or_ge (a + b) primeQ with h | h
  · have hcarry : (a + b) / 2 ^ 384 = 0 := Nat.div_eq_of_lt (h.trans hQ)
    have hborrow : ((a + b) % 2 ^ 384 + 2 ^ 384 - primeQ) / 2 ^ 384 = 0 := by omega
    rw [fieldSum_of_lt h, fieldSumSelect, hcarry, hborrow]
    omega
  · have hdrop : (1 - (a + b) / 2 ^ 384) *
        (1 - ((a + b) % 2 ^ 384 + 2 ^ 384 - primeQ) / 2 ^ 384) = 0 := by
      rw [Nat.mul_eq_zero]
      omega
    have hdiff := wrapSub_rawSum h
    rw [wrapSub, rawSum] at hdiff
    simp only [fieldSumSelect, hdrop]
    rw [fieldSum_of_ge ha hb h, ← hdiff]
    omega

/-- Settles O15: the limbs and the chains are read off the definitions; the values come from the
rippling carry, and with them the adder's. -/
theorem limbSerialAdderAgrees : Obligations.LimbSerialAdderAgrees := by
  refine ⟨fun x y => ⟨elemVal_addLimbs x y, addLimbs_carry_le x y, elemVal_subLimbs x y,
    subLimbs_borrow_le x y, lessLimbs_iff x y⟩, fun x y => ?_, fun x y => ?_⟩
  · refine ⟨carryChain x y, borrowChain x y, rfl, rfl, fun i => ?_,
      addLimbs_carry x y, subLimbs_borrow x y⟩
    rw [addLimbs_limb, subLimbs_limb]
    exact ⟨BitVec.toNat_ofNat .., carryChain_succ x y i, BitVec.toNat_ofNat ..,
      borrowChain_succ x y i⟩
  · rw [← elemVal_fieldSumLimbs, elemLimbs_elemVal]

/-- Settles O16: both sources are the old values, and doubling is the sum of a register with itself. -/
theorem faddSameRegisters : Obligations.FaddSameRegisters := by
  intro s d a b
  obtain ⟨t, ht⟩ := exec_total (.fadd d d b) s
  obtain ⟨u, hu⟩ := exec_total (.fadd d a d) s
  exact ⟨⟨t, ht, sourceVal_dest_of_fadd ht⟩, ⟨u, hu, sourceVal_dest_of_fadd hu⟩,
    fun ha => fadd_doubles ha d, fun hd => fadd_doubles hd d⟩

end Sys2Proof.Machine
end

section
/-! SUPPORT. The Montgomery product as a residue: times the radix it is the product of the sources, and
that alone fixes it (42_mont_mul.md R120, R124, R128). -/

namespace Sys2Proof.Machine

/-- The Montgomery product is commutative (R124). -/
theorem montMul_comm (a b m rinv : Nat) : montMul a b m rinv = montMul b a m rinv := by
  rw [montMul, montMul, mul_comm a b]

/-- A zero source gives 0 (R124). -/
@[simp] theorem montMul_zero (a m rinv : Nat) : montMul a 0 m rinv = 0 := by
  rw [montMul, Nat.mul_zero, Nat.zero_mul, Nat.zero_mod]

/-- Multiplying by 1 converts out of Montgomery form (R124, R128). -/
theorem montMul_one (a m rinv : Nat) : montMul a 1 m rinv = a * rinv % m := by
  rw [montMul, mul_one]

/-- The Montgomery square (R126). -/
theorem montMul_self (a m rinv : Nat) : montMul a a m rinv = a ^ 2 * rinv % m := by
  rw [montMul, sq]

/-- `m - 1` is `-1` modulo `m`, so its square is 1 (R124). -/
theorem pred_mul_pred_modEq {m : Nat} (hm : 0 < m) : (m - 1) * (m - 1) ≡ 1 [MOD m] := by
  rw [Nat.modEq_iff_dvd]
  exact ⟨2 - m, by push_cast [Nat.cast_pred hm]; ring⟩

section
variable {m rinv : Nat} (hinv : 2 ^ 384 * rinv % m = 1)
include hinv

/-- A multiplier's inverse of the radix, as a congruence (R120). -/
theorem radix_mul_rinv_modEq : 2 ^ 384 * rinv ≡ 1 [MOD m] := by
  have hone : 1 % m = 1 := by rw [← hinv, Nat.mod_mod]
  rw [Nat.ModEq, hinv, hone]

/-- The Montgomery product is the one residue that times the radix is the product of the sources
(R120). -/
theorem mod_eq_montMul {t a b : Nat} (h : t * 2 ^ 384 ≡ a * b [MOD m]) :
    t % m = montMul a b m rinv := by
  have hr := radix_mul_rinv_modEq hinv
  show t ≡ a * b * rinv [MOD m]
  calc t = t * 1 := (mul_one t).symm
    _ ≡ t * (2 ^ 384 * rinv) [MOD m] := hr.symm.mul_left t
    _ = t * 2 ^ 384 * rinv := (mul_assoc ..).symm
    _ ≡ a * b * rinv [MOD m] := h.mul_right rinv

/-- A residue that times the radix is the product of the sources is their Montgomery product (R120). -/
theorem montMul_eq_of_modEq {t a b : Nat} (ht : t < m) (h : t * 2 ^ 384 ≡ a * b [MOD m]) :
    montMul a b m rinv = t := by
  rw [← mod_eq_montMul hinv h, Nat.mod_eq_of_lt ht]

/-- The Montgomery product times the radix is the product of the sources (R120). -/
theorem montMul_mul_radix_modEq (a b : Nat) : montMul a b m rinv * 2 ^ 384 ≡ a * b [MOD m] :=
  calc montMul a b m rinv * 2 ^ 384
      ≡ a * b * rinv * 2 ^ 384 [MOD m] := (Nat.mod_modEq _ m).mul_right _
    _ = a * b * (2 ^ 384 * rinv) := by rw [mul_assoc, mul_comm rinv]
    _ ≡ a * b * 1 [MOD m] := (radix_mul_rinv_modEq hinv).mul_left _
    _ = a * b := mul_one _

/-- Montgomery-one is neutral (R124). -/
theorem montMul_radix {a : Nat} (ha : a < m) : montMul a (2 ^ 384 % m) m rinv = a :=
  montMul_eq_of_modEq hinv ha ((Nat.mod_modEq _ m).symm.mul_left a)

/-- One source in Montgomery form and one plain source give the plain product (R124). -/
theorem montMul_montForm_plain (a b : Nat) : montMul (a * 2 ^ 384 % m) b m rinv = a * b % m := by
  refine (mod_eq_montMul hinv ?_).symm
  calc a * b * 2 ^ 384 = a * 2 ^ 384 * b := Nat.mul_right_comm ..
    _ ≡ a * 2 ^ 384 % m * b [MOD m] := (Nat.mod_modEq _ m).symm.mul_right b

/-- The product of two Montgomery forms is the Montgomery form of the product (R124). -/
theorem montMul_montForm_montForm (a b : Nat) :
    montMul (a * 2 ^ 384 % m) (b * 2 ^ 384 % m) m rinv = a * b * 2 ^ 384 % m := by
  rw [montMul_montForm_plain hinv, Nat.mul_mod_mod, mul_assoc]

/-- The Montgomery square of `m - 1` is the inverse of the radix, since `m - 1` squares to 1 (R124). -/
theorem montMul_pred_pred (hlt : rinv < m) : montMul (m - 1) (m - 1) m rinv = rinv := by
  refine montMul_eq_of_modEq hinv hlt ?_
  calc rinv * 2 ^ 384 = 2 ^ 384 * rinv := mul_comm ..
    _ ≡ 1 [MOD m] := radix_mul_rinv_modEq hinv
    _ ≡ (m - 1) * (m - 1) [MOD m] := (pred_mul_pred_modEq (Nat.zero_lt_of_lt hlt)).symm

/-- `RR`, the square of the radix, takes a value into Montgomery form (R127, R128). -/
theorem montMul_radixSq {rr : Nat} (hrr : rr = 2 ^ 768 % m) (a : Nat) :
    montMul a rr m rinv = a * 2 ^ 384 % m := by
  refine (mod_eq_montMul hinv ?_).symm
  calc a * 2 ^ 384 * 2 ^ 384 = a * 2 ^ 768 := by rw [mul_assoc, ← pow_add]
    _ ≡ a * (2 ^ 768 % m) [MOD m] := (Nat.mod_modEq _ m).symm.mul_left a
    _ = a * rr := by rw [hrr]

/-- Both sources converted in, multiplied and converted out give the plain product (R128). -/
theorem montMul_convert_both {rr : Nat} (hrr : rr = 2 ^ 768 % m) (a b : Nat) :
    montMul (montMul (montMul a rr m rinv) (montMul b rr m rinv) m rinv) 1 m rinv = a * b % m := by
  rw [montMul_radixSq hinv hrr, montMul_radixSq hinv hrr, montMul_montForm_montForm hinv,
    montMul_montForm_plain hinv, mul_one]

/-- One source converted in and multiplied by a plain one gives the plain product (R128). -/
theorem montMul_convert_one {rr : Nat} (hrr : rr = 2 ^ 768 % m) (a b : Nat) :
    montMul (montMul a rr m rinv) b m rinv = a * b % m := by
  rw [montMul_radixSq hinv hrr, montMul_montForm_plain hinv]

end

/-- Each modulus comes with an inverse of the radix below it (R120). -/
theorem rinv_of_modulus {m rinv : Nat}
    (h : m = primeQ ∧ rinv = rinvQ ∨ m = orderN ∧ rinv = rinvN) :
    2 ^ 384 * rinv % m = 1 ∧ rinv < m := by
  rcases h with ⟨rfl, rfl⟩ | ⟨rfl, rfl⟩
  · exact ⟨rinvQ_spec, by decide⟩
  · exact ⟨rinvN_spec, by decide⟩

end Sys2Proof.Machine
end

section
/-! SUPPORT. What the two multipliers leave in their destination, whichever registers coincide
(42_mont_mul.md R122, R123, R126). -/

namespace Sys2Proof.Machine

/-- `N` has 384 bits (R28). -/
theorem orderN_lt : orderN < 2 ^ 384 := moduli_lt.1.trans primeQ_lt

/-- A multiplier with both sources in range leaves in its destination the Montgomery product of their
old values (R122, R123, R126). -/
theorem sourceVal_dest_of_montCommand {m : Nat} (hm : m < 2 ^ 384) {s : State} {ra rb : EReg}
    (ha : sourceVal s ra < m) (hb : sourceVal s rb < m) (rinv : Nat) (rd : EReg) :
    sourceVal (montCommand m rinv rd ra rb s) rd
      = montMul (sourceVal s ra) (sourceVal s rb) m rinv := by
  rw [montCommand_of_in_range ha hb]
  exact sourceVal_writeVal_same s rd ((montMul_lt (Nat.zero_lt_of_lt ha) ..).trans hm)

/-- What a multiplier with both sources in range does: the product in its destination, and nothing
else (R122, R123). -/
theorem montCommand_contract {m rinv : Nat} (hinv : 2 ^ 384 * rinv % m = 1) (hm : m < 2 ^ 384)
    {s t : State} {rd ra rb : EReg} (ha : sourceVal s ra < m) (hb : sourceVal s rb < m)
    (ht : montCommand m rinv rd ra rb s = t) :
    sourceVal t rd = sourceVal s ra * sourceVal s rb * rinv % m ∧
    sourceVal t rd * 2 ^ 384 % m = sourceVal s ra * sourceVal s rb % m ∧
    sourceVal t rd < m ∧
    (∀ r, r ≠ rd → readElem t r = readElem s r) ∧
    t.k = s.k ∧ t.busy = s.busy ∧ t.cmdr = s.cmdr ∧ t.ill = s.ill ∧
    t.port = s.port ∧ t.answers = s.answers ∧ t.draws = s.draws := by
  have hval := sourceVal_dest_of_montCommand hm ha hb rinv rd
  rw [montCommand_of_in_range ha hb] at ht hval
  subst ht
  refine ⟨hval, ?_, ?_, fun r hr => readElem_writeVal_other s _ hr,
    rfl, rfl, rfl, rfl, rfl, rfl, rfl⟩
  · rw [hval]
    exact montMul_mul_radix_modEq hinv _ _
  · rw [hval]
    exact montMul_lt (Nat.zero_lt_of_lt ha) ..

/-- `FMUL` of field elements leaves their Montgomery product modulo `Q` (R122). -/
theorem exec_fmul_of_inQ {s : State} {ra rb : EReg} (ha : InQ (sourceVal s ra))
    (hb : InQ (sourceVal s rb)) (rd : EReg) :
    ∃ t, exec (.fmul rd ra rb) s = .next t ∧
      sourceVal t rd = montMul (sourceVal s ra) (sourceVal s rb) primeQ rinvQ :=
  ⟨_, rfl, sourceVal_dest_of_montCommand primeQ_lt ha hb rinvQ rd⟩

/-- `SMUL` of scalars leaves their Montgomery product modulo `N` (R123). -/
theorem exec_smul_of_inN {s : State} {ra rb : EReg} (ha : InN (sourceVal s ra))
    (hb : InN (sourceVal s rb)) (rd : EReg) :
    ∃ t, exec (.smul rd ra rb) s = .next t ∧
      sourceVal t rd = montMul (sourceVal s ra) (sourceVal s rb) orderN rinvN :=
  ⟨_, rfl, sourceVal_dest_of_montCommand orderN_lt ha hb rinvN rd⟩

/-! ### The constants a host converts with (R127). -/

set_option exponentiation.threshold 800 in
/-- `RR_Q` is the square of the radix modulo `Q` (R127). -/
theorem rrQ_eq : rrQ = 2 ^ 768 % primeQ := by decide

set_option exponentiation.threshold 800 in
/-- `RR_N` is the square of the radix modulo `N` (R127). -/
theorem rrN_eq : rrN = 2 ^ 768 % orderN := by decide

/-- `RR_Q` and 1 are field elements, `RR_N` and 1 scalars (R127). -/
theorem conversion_constants_in_range : InQ rrQ ∧ InQ 1 ∧ InN rrN ∧ InN 1 := by decide

end Sys2Proof.Machine
end

section
/-! SUPPORT. The word-serial algorithm: each turn divides by `2^64` modulo `m`, so six turns divide
by the radix, and the running value stays below `m + b` (42_mont_mul.md R129). -/

namespace Sys2Proof.Machine

/-! ### One turn (R129). -/

section
variable {m : Nat} {n0 : Word} (hn0 : m * n0.toNat % 2 ^ 64 = 2 ^ 64 - 1)
include hn0

/-- The multiple of the modulus that a turn adds clears the low 64 bits (R129). -/
theorem dvd_add_reduction_mul (t : Nat) :
    2 ^ 64 ∣ t + t % 2 ^ 64 * n0.toNat % 2 ^ 64 * m := by
  have hu : t % 2 ^ 64 * n0.toNat % 2 ^ 64 ≡ t * n0.toNat [MOD 2 ^ 64] :=
    (Nat.mod_modEq _ _).trans ((Nat.mod_modEq t _).mul_right _)
  have hneg : m * n0.toNat ≡ 2 ^ 64 - 1 [MOD 2 ^ 64] := hn0
  rw [← Nat.modEq_zero_iff_dvd]
  calc t + t % 2 ^ 64 * n0.toNat % 2 ^ 64 * m
      ≡ t + t * n0.toNat * m [MOD 2 ^ 64] := (hu.mul_right m).add_left t
    _ = t + t * (m * n0.toNat) := by rw [mul_assoc, mul_comm m]
    _ ≡ t + t * (2 ^ 64 - 1) [MOD 2 ^ 64] := (hneg.mul_left t).add_left t
    _ = t * 2 ^ 64 := by omega
    _ ≡ 0 [MOD 2 ^ 64] := (Nat.modEq_zero_iff_dvd).2 (Nat.dvd_mul_left _ t)

/-- A turn divides by `2^64` modulo the modulus (R129). -/
theorem montRefTurn_mul_modEq (ai : Word) (b t : Nat) :
    montRefTurn ai b m n0 t * 2 ^ 64 ≡ t + ai.toNat * b [MOD m] := by
  rw [montRefTurn, Nat.div_mul_cancel (dvd_add_reduction_mul hn0 _)]
  exact Nat.add_mul_mod_self_right ..

end

/-- A turn keeps the running value below `m + b` (R129). -/
theorem montRefTurn_lt {b m t : Nat} (ai n0 : Word) (h : t < m + b) :
    montRefTurn ai b m n0 t < m + b := by
  have hlimb : ai.toNat * b ≤ (2 ^ 64 - 1) * b :=
    Nat.mul_le_mul_right b (Nat.le_sub_one_of_lt ai.isLt)
  have hreduction : (t + ai.toNat * b) % 2 ^ 64 * n0.toNat % 2 ^ 64 * m ≤ (2 ^ 64 - 1) * m :=
    Nat.mul_le_mul_right m (Nat.le_sub_one_of_lt (Nat.mod_lt _ (Nat.two_pow_pos 64)))
  rw [montRefTurn]
  apply Nat.div_lt_of_lt_mul
  omega

/-! ### The loop (R129). -/

/-- The number whose base-`2^64` digits are the words, the least significant first (R13). -/
def wordsVal (ws : List Word) : Nat := Nat.ofDigits (2 ^ 64) (ws.map BitVec.toNat)

@[simp] theorem wordsVal_nil : wordsVal [] = 0 := rfl

@[simp] theorem wordsVal_cons (w : Word) (ws : List Word) :
    wordsVal (w :: ws) = w.toNat + 2 ^ 64 * wordsVal ws := by
  simp [wordsVal, Nat.ofDigits_cons]

/-- An element's value is that of its list of limbs (R13). -/
theorem wordsVal_toList (x : Elem) : wordsVal x.toList = elemVal x := by
  have hlist : x.toList = [x[0], x[1], x[2], x[3], x[4], x[5]] := by
    match x with
    | ⟨⟨[_, _, _, _, _, _]⟩, rfl⟩ => rfl
  simp only [hlist, wordsVal_cons, wordsVal_nil, elemVal]
  omega

/-- The loop of R129 over the words of the first source, from a running value `t`. -/
def montRefLoop (b m : Nat) (n0 : Word) (ws : List Word) (t : Nat) : Nat :=
  ws.foldl (fun t ai => montRefTurn ai b m n0 t) t

/-- The loop divides by `2^64` once for each word (R129). -/
theorem montRefLoop_mul_modEq {m : Nat} {n0 : Word} (hn0 : m * n0.toNat % 2 ^ 64 = 2 ^ 64 - 1)
    (b : Nat) (ws : List Word) (t : Nat) :
    montRefLoop b m n0 ws t * (2 ^ 64) ^ ws.length ≡ t + wordsVal ws * b [MOD m] := by
  induction ws generalizing t with
  | nil => simp [montRefLoop, Nat.ModEq]
  | cons w ws ih =>
    have hturn := montRefTurn_mul_modEq hn0 w b t
    calc montRefLoop b m n0 ws (montRefTurn w b m n0 t) * (2 ^ 64) ^ (ws.length + 1)
        = montRefLoop b m n0 ws (montRefTurn w b m n0 t) * (2 ^ 64) ^ ws.length * 2 ^ 64 := by
          rw [pow_succ, mul_assoc]
      _ ≡ (montRefTurn w b m n0 t + wordsVal ws * b) * 2 ^ 64 [MOD m] := (ih _).mul_right _
      _ = montRefTurn w b m n0 t * 2 ^ 64 + wordsVal ws * b * 2 ^ 64 := add_mul ..
      _ ≡ t + w.toNat * b + wordsVal ws * b * 2 ^ 64 [MOD m] := hturn.add_right _
      _ = t + wordsVal (w :: ws) * b := by rw [wordsVal_cons]; ring

/-- The loop keeps the running value below `m + b` (R129). -/
theorem montRefLoop_lt {b m t : Nat} (n0 : Word) (ws : List Word) (h : t < m + b) :
    montRefLoop b m n0 ws t < m + b := by
  induction ws generalizing t with
  | nil => exact h
  | cons w ws ih => exact ih (montRefTurn_lt w n0 h)

/-! ### The whole algorithm (R129). -/

/-- Below twice the modulus one conditional subtraction reduces. -/
theorem ite_sub_eq_mod {t m : Nat} (h : t < 2 * m) : (if m ≤ t then t - m else t) = t % m := by
  split
  · next hge => rw [Nat.mod_eq_sub_mod hge, Nat.mod_eq_of_lt (by omega)]
  · next hlt => rw [Nat.mod_eq_of_lt (Nat.not_le.1 hlt)]

/-- With the reduction constant of the modulus and the second source in range, the algorithm computes
the Montgomery product (R120, R129). -/
theorem montMulRef_eq_montMul {m rinv b : Nat} {n0 : Word}
    (hn0 : m * n0.toNat % 2 ^ 64 = 2 ^ 64 - 1) (hinv : 2 ^ 384 * rinv % m = 1) (x : Elem)
    (hb : b < m) : montMulRef x b m n0 = montMul (elemVal x) b m rinv := by
  have hsum : montRefLoop b m n0 x.toList 0 < m + b := montRefLoop_lt n0 x.toList (by omega)
  have hlt : montRefLoop b m n0 x.toList 0 < 2 * m := by omega
  have hradix : (2 ^ 64) ^ 6 = 2 ^ 384 := by rw [← pow_mul]
  have hloop := montRefLoop_mul_modEq hn0 b x.toList 0
  rw [Vector.length_toList, hradix, wordsVal_toList, zero_add] at hloop
  calc montMulRef x b m n0 = montRefLoop b m n0 x.toList 0 % m := ite_sub_eq_mod hlt
    _ = montMul (elemVal x) b m rinv := mod_eq_montMul hinv hloop

end Sys2Proof.Machine
end

section
/-! The statements of 42_mont_mul.md. -/

namespace Sys2Proof.Machine

/-- Settles O17, by the contract the two multipliers share. -/
theorem fmulContract : Obligations.FmulContract := fun _ _ _ _ ha hb =>
  ⟨_, rfl, montCommand_contract rinvQ_spec primeQ_lt ha hb rfl⟩

/-- Settles O18, by the contract the two multipliers share. -/
theorem smulContract : Obligations.SmulContract := fun _ _ _ _ ha hb =>
  ⟨_, rfl, montCommand_contract rinvN_spec orderN_lt ha hb rfl⟩

/-- Settles O19: out of range the next state is one draw of the destination. -/
theorem multiplierOutOfRange : Obligations.MultiplierOutOfRange := by
  refine ⟨fun s rd ra rb h => ?_, fun s rd ra rb h => ?_⟩
  · exact ⟨drawElem s rd, congrArg _ (montCommand_of_out_of_range h rinvQ rd),
      fun r hr => readElem_drawElem_other s hr, rfl, rfl, rfl, rfl, rfl, rfl⟩
  · exact ⟨drawElem s rd, congrArg _ (montCommand_of_out_of_range h rinvN rd),
      fun r hr => readElem_drawElem_other s hr, rfl, rfl, rfl, rfl, rfl, rfl⟩

/-- Settles O21: all but the first few follow from the product times the radix being the product of the
sources. -/
theorem montgomeryConsequences : Obligations.MontgomeryConsequences := by
  intro m rinv hm a b ha _
  obtain ⟨hinv, hlt⟩ := rinv_of_modulus hm
  refine ⟨montMul_lt (Nat.zero_lt_of_lt ha) a b rinv, montMul_comm a b m rinv, ?_,
    montMul_zero a m rinv, montMul_radix hinv ha, montMul_one a m rinv,
    montMul_montForm_montForm hinv a b, montMul_montForm_plain hinv a b,
    montMul_pred_pred hinv hlt, ?_⟩
  · rw [montMul_comm, montMul_zero]
  · rw [montMul_one, one_mul, Nat.mod_eq_of_lt hlt]

/-- Settles O22: each command leaves the Montgomery product by the constant that its register holds,
and `RR` is the square of the radix. -/
theorem montgomeryConversions : Obligations.MontgomeryConversions := by
  obtain ⟨hrrQ, honeQ, hrrN, honeN⟩ := conversion_constants_in_range
  refine ⟨fun s d a c ha => ⟨fun hc => ?_, fun hc => ?_⟩,
    fun s d a c ha => ⟨fun hc => ?_, fun hc => ?_⟩, fun x y _ _ => ?_, fun x y _ _ => ?_⟩
  · obtain ⟨t, ht, hval⟩ := exec_fmul_of_inQ ha (hc ▸ hrrQ) d
    exact ⟨t, ht, by rw [hval, hc, montMul_radixSq rinvQ_spec rrQ_eq, montQ]⟩
  · obtain ⟨t, ht, hval⟩ := exec_fmul_of_inQ ha (hc ▸ honeQ) d
    exact ⟨t, ht, by rw [hval, hc, montMul_one]⟩
  · obtain ⟨t, ht, hval⟩ := exec_smul_of_inN ha (hc ▸ hrrN) d
    exact ⟨t, ht, by rw [hval, hc, montMul_radixSq rinvN_spec rrN_eq, montN]⟩
  · obtain ⟨t, ht, hval⟩ := exec_smul_of_inN ha (hc ▸ honeN) d
    exact ⟨t, ht, by rw [hval, hc, montMul_one]⟩
  · exact ⟨montMul_convert_both rinvQ_spec rrQ_eq x y, montMul_convert_one rinvQ_spec rrQ_eq x y⟩
  · exact ⟨montMul_convert_both rinvN_spec rrN_eq x y, montMul_convert_one rinvN_spec rrN_eq x y⟩

/-- Settles O23, with the reduction constants of the modulus table. -/
theorem referenceKernelAgrees : Obligations.ReferenceKernelAgrees := by
  obtain ⟨-, hQ, -, hN⟩ := reductionConstants
  exact ⟨fun x y _ hy => montMulRef_eq_montMul hQ rinvQ_spec x hy,
    fun x y _ hy => montMulRef_eq_montMul hN rinvN_spec x hy⟩

/-- Settles O24: sources below `N` are below `Q` too, so each command is within its contract. -/
theorem multipliersDifferInModulusOnly : Obligations.MultipliersDifferInModulusOnly := by
  intro s rd ra rb ha hb
  obtain ⟨tq, hq, hvalQ, -, hltQ, -, -, -, -, hillQ, -⟩ :=
    fmulContract s rd ra rb (inQ_of_inN ha) (inQ_of_inN hb)
  obtain ⟨tn, hn, hvalN, -, hltN, -, -, -, -, hillN, -⟩ := smulContract s rd ra rb ha hb
  exact ⟨tq, tn, hq, hn, hvalQ, hvalN, hltQ, hltN, hillQ, hillN⟩

/-- Settles O25: the destination gets the product of the old values, whichever registers coincide. -/
theorem multiplierSameRegisters : Obligations.MultiplierSameRegisters := by
  refine ⟨fun s d a b hd ha hb => ⟨exec_fmul_of_inQ hd hb d, exec_fmul_of_inQ ha hd d, ?_, ?_⟩,
    fun s d a b hd ha hb => ⟨exec_smul_of_inN hd hb d, exec_smul_of_inN ha hd d, ?_, ?_⟩⟩
  · exact montMul_self _ primeQ rinvQ ▸ exec_fmul_of_inQ ha ha d
  · exact montMul_self _ primeQ rinvQ ▸ exec_fmul_of_inQ hd hd d
  · exact montMul_self _ orderN rinvN ▸ exec_smul_of_inN ha ha d
  · exact montMul_self _ orderN rinvN ▸ exec_smul_of_inN hd hd d

end Sys2Proof.Machine
end

section
/-! SUPPORT. What a read of the window depends on, and what a step can do to `ILL` and while `ILL = 1`
(20_memory.md R54, R57; 60_exceptions.md R141, R143, R144). -/

namespace Sys2Proof.Machine

open Sys2Proof.Safety

/-! ### Reads of two states that agree (R54, R57). -/

/-- A read depends on the element register whose limb lies at the offset, on `K` and on the two status
bits (R57). -/
theorem winRead_congr {s t : State} {off : Nat}
    (hlimb : ∀ r i, windowWord off = .limb r i → readElem t r = readElem s r) (hk : t.k = s.k)
    (hbusy : t.busy = s.busy) (hill : t.ill = s.ill) : winRead t off = winRead s off := by
  rw [winRead, winRead]
  cases hw : windowWord off with
  | limb r i => exact congrArg (·[i]) (hlimb r i hw)
  | cond c => exact readCond_congr hk c
  | status => simp only [statusWord, hbusy, hill]
  | _ => rfl

/-- Outside the 48 bytes of a register's six limbs no byte of the window is one of its limbs' (R51,
R54). -/
theorem ne_of_windowWord_outside {a : Nat} {d r : EReg} {i : Fin 6}
    (ha : a < 0x40 * d.val ∨ 0x40 * d.val + 48 ≤ a) (hw : windowWord (a / 8 * 8) = .limb r i) :
    r ≠ d := by
  rintro rfl
  obtain ⟨-, hreg, hlimb⟩ := windowWord_eq_limb hw
  omega

/-- A command leaves every byte of the window outside its destination's 48 as it was (R89, R140). -/
theorem windowByte_exec_outside {i : Instr} {s t : State} {a : Nat} (h : exec i s = .next t)
    (ha : a < 0x40 * (destOf i).val ∨ 0x40 * (destOf i).val + 48 ≤ a) :
    windowByte t a = windowByte s a := by
  have hread : winRead t (a / 8 * 8) = winRead s (a / 8 * 8) :=
    winRead_congr (fun _ _ hw => readElem_exec_other h (ne_of_windowWord_outside ha hw)) (exec_k h)
      (by rw [exec_frame h]) (by rw [exec_frame h])
  rw [windowByte, windowByte, hread]

/-- A command within its contract draws no free value (R168; log entry 1). -/
theorem exec_draws_of_inContract {i : Instr} {s t : State} (h : exec i s = .next t)
    (hc : inContract i s = true) : t.draws = s.draws := by
  cases h.symm.trans (exec_of_inContract hc)
  rfl

/-! ### Where `ILL` is set (R141). -/

/-- The core's turn leaves `ILL` as it is (R89, R141). -/
theorem coreTurn_ill {s t : State} (h : coreTurn s = .next t) : t.ill = s.ill := by
  rcases coreTurn_cases h with ⟨-, i, u, -, hu, rfl⟩ | ⟨-, rfl⟩
  · rw [clearBusy_ill, exec_frame hu]
  · rfl

/-- A window write changes `ILL` only as the write to `CMD` of a datum that is no command (R59,
R141). -/
theorem illegal_of_winWrite_changes_ill {s : State} {off : Nat} {v : Word}
    (hne : (winWrite s off v).ill ≠ s.ill) :
    windowWord off = .cmd ∧ ∃ why, decode v = .error why := by
  rcases winWrite_cases s off v with ⟨r, i, -, h⟩ | ⟨c, -, h⟩ | ⟨hw, h⟩ | h <;> rw [h] at hne
  · exact absurd rfl hne
  · exact absurd rfl hne
  · rcases issue_cases s v with ⟨-, hissue⟩ | ⟨-, hv, -⟩ | ⟨-, -, hissue⟩
    · exact absurd (congrArg (·.ill) hissue) hne
    · exact ⟨hw, hv⟩
    · exact absurd (congrArg (·.ill) hissue) hne
  · exact absurd rfl hne

/-! ### While `ILL = 1` (R143, R144). -/

/-- A sound state with `ILL = 1` has no command in flight (R88, R143). -/
theorem idle_of_sound_of_ill {s : State} (hs : Sound s) (hill : s.ill = true) : s.busy = false := by
  cases hbusy : s.busy with
  | false => rfl
  | true => exact absurd (hill.symm.trans (hs hbusy).2) Bool.noConfusion

/-- While `ILL = 1` a window write changes at most the two register files (R59, R143). -/
theorem winWrite_of_ill {s : State} (hill : s.ill = true) (off : Nat) (v : Word) :
    ∃ e k, winWrite s off v = { s with e := e, k := k } := by
  rcases winWrite_cases s off v with ⟨r, i, -, h⟩ | ⟨c, -, h⟩ | ⟨-, h⟩ | h <;> rw [h]
  · exact ⟨_, s.k, rfl⟩
  · exact ⟨s.e, _, rfl⟩
  · exact ⟨s.e, s.k, issue_of_ill hill v⟩
  · exact ⟨s.e, s.k, rfl⟩

/-- A step taken with `ILL = 1`, nothing in flight and no reset pending changes at most the register
files, the pending steps and the answers, and leaves no reset pending (R143, R144). -/
theorem step_of_ill {s t : State} (hbusy : s.busy = false) (hill : s.ill = true)
    (hreset : HostStep.reset ∉ s.port) (h : step s = .next t) :
    ∃ e k p a, t = { s with e := e, k := k, port := p, answers := a } ∧ HostStep.reset ∉ p := by
  have htail {x : HostStep} {rest : List HostStep} (hp : s.port = x :: rest) :
      HostStep.reset ∉ rest := fun hmem => hreset (hp ▸ List.mem_cons_of_mem x hmem)
  rcases step_cases h with ⟨-, hcore⟩ | ⟨rest, hp, hcore⟩ | ⟨rest, hp, -⟩ |
    ⟨off, rest, hp, -, -, -, rfl⟩ | ⟨off, v, rest, hp, -, -, -, rfl⟩
  · cases hcore.symm.trans (coreTurn_of_idle hbusy)
    exact ⟨s.e, s.k, s.port, s.answers, rfl, hreset⟩
  · cases hcore.symm.trans (coreTurn_of_idle (s := withPort s rest) hbusy)
    exact ⟨s.e, s.k, rest, s.answers, rfl, htail hp⟩
  · exact absurd (hp ▸ List.mem_cons_self) hreset
  · exact ⟨s.e, s.k, rest, _, rfl, htail hp⟩
  · obtain ⟨e, k, hw⟩ := winWrite_of_ill (s := withPort s rest) hill off v
    exact ⟨e, k, rest, s.answers, hw, htail hp⟩

/-- The same of any number of steps (R143, R144). -/
theorem run_of_ill {n : Nat} {s t : State} (hbusy : s.busy = false) (hill : s.ill = true)
    (hreset : HostStep.reset ∉ s.port) (h : Host.Core.run core n s = .next t) :
    ∃ e k p a, t = { s with e := e, k := k, port := p, answers := a } := by
  induction n generalizing s with
  | zero =>
    cases h
    exact ⟨t.e, t.k, t.port, t.answers, rfl⟩
  | succ n ih =>
    obtain ⟨u, hstep, hrun⟩ := run_succ_next h
    obtain ⟨e, k, p, a, rfl, hreset'⟩ := step_of_ill hbusy hill hreset hstep
    exact ih (s := { s with e := e, k := k, port := p, answers := a }) hbusy hill
      hreset' hrun

end Sys2Proof.Machine
end

section
/-! The statements of 60_exceptions.md. -/

namespace Sys2Proof.Machine

open Sys2Proof.Safety

/-- Settles O35: a sound state with `ILL = 1` has nothing in flight, and no run from there without a
reset reaches `BUSY`, `CMDR`, `ILL` or the draw counter. -/
theorem illEndsOnlyByReset : Obligations.IllEndsOnlyByReset := by
  intro n s t hs hill hreset hrun
  have hbusy := idle_of_sound_of_ill hs hill
  obtain ⟨e, k, p, a, rfl⟩ := run_of_ill hbusy hill hreset hrun
  exact ⟨hill, hbusy, rfl, rfl⟩

/-- Settles O26: a command changes `E` at its destination and the draw counter alone, and in contract
not even that counter. -/
theorem commandFrame : Obligations.CommandFrame := by
  intro i s
  obtain ⟨t, ht⟩ := exec_total i s
  obtain ⟨hk, hbusy, hcmdr, hill, hport, hanswers⟩ : t.k = s.k ∧ t.busy = s.busy ∧
      t.cmdr = s.cmdr ∧ t.ill = s.ill ∧ t.port = s.port ∧ t.answers = s.answers := by
    rw [exec_frame ht]
    exact ⟨rfl, rfl, rfl, rfl, rfl, rfl⟩
  exact ⟨t, ht, fun r hr => readElem_exec_other ht hr, hk, hbusy, hcmdr, hill, hport, hanswers,
    fun a _ ha => windowByte_exec_outside ht ha, exec_draws_of_inContract ht⟩

/-- Settles O33: the illegal datum's step is the issue that raises `Illegal`; and of all that a step
can have been, only such an issue sets `ILL`. -/
theorem illegalEventIsPrecise : Obligations.IllegalEventIsPrecise := by
  refine ⟨fun s v rest hbusy hill hv hp => ?_, fun s t h hill hset => ?_⟩
  · obtain ⟨-, hraise, -⟩ := issueByCmdWrite s v rest hbusy hp
    exact ⟨_, hraise hill hv, rfl, hbusy, rfl, rfl, rfl, rfl, rfl, rfl⟩
  · have hne : t.ill ≠ s.ill := by simp [hill, hset]
    rcases step_cases h with ⟨-, hcore⟩ | ⟨rest, -, hcore⟩ | ⟨rest, -, rfl⟩ |
      ⟨off, rest, -, -, -, -, rfl⟩ | ⟨off, v, rest, hp, ha, -, hh, rfl⟩
    · exact absurd (coreTurn_ill hcore) hne
    · exact absurd (coreTurn_ill hcore) hne
    · exact absurd hset Bool.false_ne_true
    · exact absurd rfl hne
    · obtain ⟨hw, hv⟩ := illegal_of_winWrite_changes_ill (s := withPort s rest) hne
      obtain rfl := offset_of_cmd ha hw
      exact ⟨idle_of_not_held hh (by decide), v, rest, hp, not_exists.1 (exists_error_iff.1 hv)⟩

/-- Settles O34: nothing is in flight, so no access is held, and each is what it is in any idle state;
the issue discards. -/
theorem commandsDiscardedWhileIll : Obligations.CommandsDiscardedWhileIll := by
  intro s rest hs hill
  have hbusy := idle_of_sound_of_ill hs hill
  have hfree {off : Nat} : held s off = false := held_of_idle hbusy off
  refine ⟨fun v hp => ?_, fun off ha ho hp => ?_, fun r i v hp => ?_, fun c v hp => ?_⟩
  · exact (issueByCmdWrite s v rest hbusy hp).1 hill
  · exact step_read hp ha ho hfree
  · have hstep := step_write hp (by omega) (by omega) hfree
    rw [hostWrite, winWrite_limb] at hstep
    exact ⟨_, hstep, readLimb_writeLimb_same _ r i v, hill, hbusy⟩
  · have hstep := step_write hp (by omega) (by omega) hfree
    rw [hostWrite, winWrite_cond] at hstep
    exact ⟨_, hstep, readCond_writeCond_same _ c v, hill, hbusy⟩

end Sys2Proof.Machine
end

section
/-! SUPPORT. What a reset forgets and what is read behind it, and how a command in flight outlasts a
step (20_memory.md R57, R58; 70_reset_and_hazards.md R160, R161, R169). -/

namespace Sys2Proof.Machine

open Sys2Proof.Safety

/-! ### The reset state (R160, R161). -/

/-- A reset forgets the whole block: with the same pending steps only the model's own answers and draw
counter could tell two reset states apart (R160; log entry 11). -/
theorem resetBlock_withPort_congr {s u : State} (hanswers : u.answers = s.answers)
    (hdraws : u.draws = s.draws) (rest : List HostStep) :
    resetBlock (withPort u rest) = resetBlock (withPort s rest) := by
  simp only [resetBlock, withPort, hanswers, hdraws]

/-- Below `STATUS` a block of the reset value reads 0: registers, `CMD` and pads (R42, R57). -/
theorem winRead_of_blockReset {s : State} (h : s.toBlock = blockReset) {off : Nat}
    (ho : off < 0x248) : winRead s off = 0 := by
  have hmap := windowWord_spec off
  rw [winRead]
  cases hw : windowWord off with
  | limb r i => exact readLimb_of_blockReset h r i
  | cond c => exact readCond_of_blockReset h c
  | cmd | reserved => rfl
  | status | cfg | q | qn0 | n | nn0 =>
    rw [hw] at hmap
    omega

/-! ### A command in flight (R58, R89, R169). -/

/-- The core's turn ends with `BUSY = 0` (R89). -/
theorem coreTurn_busy {s t : State} (h : coreTurn s = .next t) : t.busy = false := by
  rcases coreTurn_cases h with ⟨-, i, u, -, -, rfl⟩ | ⟨hidle, rfl⟩
  · rfl
  · exact hidle

/-- A step that ends with `BUSY = 1` takes one host step up: the core's turn would have ended with
`BUSY = 0` (R58, R89). -/
theorem port_of_step_busy {s t : State} (h : step s = .next t) (hbusy : t.busy = true) :
    ∃ x, s.port = x :: t.port := by
  have hnot (hidle : t.busy = false) : False := Bool.noConfusion (hbusy.symm.trans hidle)
  rcases step_cases h with ⟨-, hcore⟩ | ⟨rest, -, hcore⟩ | ⟨rest, -, rfl⟩ |
    ⟨off, rest, hp, -, -, -, rfl⟩ | ⟨off, v, rest, hp, -, -, -, rfl⟩
  · exact (hnot (coreTurn_busy hcore)).elim
  · exact (hnot (coreTurn_busy hcore)).elim
  · exact (hnot rfl).elim
  · exact ⟨_, hp⟩
  · exact ⟨_, by rw [hostWrite, winWrite_port, withPort_port, hp]⟩

end Sys2Proof.Machine
end

section
/-! The statements of 70_reset_and_hazards.md. -/

namespace Sys2Proof.Machine

open Sys2Proof.Safety

/-- Settles O52: both reset to one state, since they agree on all that a reset leaves; there nothing is
held, and every word below `STATUS` is 0. -/
theorem resetAbandonsCommand : Obligations.ResetAbandonsCommand := by
  intro s u off rest _ ha ho hp hport hanswers hdraws
  refine ⟨_, step_reset hp, ?_, rfl, readLimb_of_blockReset (resetBlock_toBlock _), ?_⟩
  · rw [step_reset (hport.trans hp), resetBlock_withPort_congr hanswers hdraws]
  · rw [step_read rfl ha (by omega) (held_of_idle rfl off), hostRead,
      winRead_of_blockReset (by rfl) ho]
    rfl

/-- Settles O56, by recursion on the pending steps: a sound state steps to a sound state, and where that
one is still busy it has one host step fewer pending. -/
theorem commandInFlightEnds : Obligations.CommandInFlightEnds := by
  intro s hs _ hwf
  obtain ⟨t, ht⟩ := step_total hs fun x rest hp => hwf x (hp ▸ List.mem_cons_self)
  cases hbusy : t.busy with
  | false => exact ⟨1, t, Nat.le_add_left 1 _, run_next ht 0, hbusy⟩
  | true =>
    obtain ⟨x, hp⟩ := port_of_step_busy ht hbusy
    obtain ⟨n, u, hn, hrun, hidle⟩ := commandInFlightEnds t (soundKeptByEveryStep s t hs ht) hbusy
      fun y hy => hwf y (hp ▸ List.mem_cons_of_mem x hy)
    exact ⟨n + 1, u, by rw [hp, List.length_cons]; omega, (run_next ht n).trans hrun, hidle⟩
termination_by s => s.port.length
decreasing_by simp [hp]

/-- Settles O47: the two fields are 64 and 6 in every state. -/
theorem startUpCheckPassesExactly : Obligations.StartUpCheckPassesExactly := by
  intro s hostWidth hostLimbs
  obtain ⟨-, hwidth, hlimbs, -⟩ := cfgRegister s 0 []
  rw [startUpCheck, hwidth, hlimbs]
  simp only [Bool.and_eq_true, beq_iff_eq]
  exact and_congr eq_comm eq_comm

end Sys2Proof.Machine
end

section
/-! The round trip of the encoding (30_encoding.md R86). -/

namespace Sys2Proof

/-- Settles O1: the encoder's fields are read back as they were laid down, and a legal datum, whose high
bits and `z` field are zero, is its opcode and operand fields laid side by side. -/
theorem decodeInvertsEncode : Obligations.DecodeInvertsEncode :=
  ⟨decode_encode, fun _ _ => encode_of_decode⟩

end Sys2Proof
end
